-- ==== Sys2Proof/Word.lean ====
section
/-! DEFINITION. The byte, the register index and the flag word of the LS-8 (00_scope.md R7, R10; 10_state.md R20, R21, R29). -/
namespace Sys2Proof

/-- A byte: every register, memory cell, immediate, address and the pc is exactly 8 bits, unsigned (R7, R10, R20). -/
abbrev Byte := BitVec 8

/-- An index into the register file, 0 to 7 (R21). -/
abbrev RegIndex := Fin 8

/-- The flags register as a word of exactly 3 bits: E is bit 0, G is bit 1, L is bit 2 (R29). -/
abbrev FlagWord := BitVec 3

end Sys2Proof
end

