-- ==== Sys2Proof/Config.lean ====
section
/-! DEFINITION. The parameters of a step that are not state (00_scope.md R8, 10_state.md R24): the two policies, and the open
function DIV_FN. Which policies the machine `Sys2Proof.Machine.step` runs under is `Sys2Proof.Machine.decided`, in
Machine/Ops.lean. -/
namespace Sys2Proof

/-- `ADDR_POLICY`: what a computed address outside 0..255 becomes (R8, R12). -/
inductive AddrPolicy where
  | wrap
  | clamp
  | fault
deriving DecidableEq, Repr

/-- `OVERFLOW_POLICY`: what an arithmetic result outside 0..255 becomes (R8, R12). -/
inductive OverflowPolicy where
  | wrap
  | fault
deriving DecidableEq, Repr

/-- The parameters a step takes beside the state (R8, R24). -/
structure Config where
  addrPolicy     : AddrPolicy
  overflowPolicy : OverflowPolicy
deriving DecidableEq, Repr

/-- `DIV_FN`: the total function on (a, b), b ≠ 0, that the spec leaves OPEN (R8, R134, D13). It has no body, so nothing can
be proved of its values. No opcode drives the ALU with DIV, so no program reaches it (log entry 2). -/
opaque Config.divFn : Byte → Byte → Byte

end Sys2Proof
end

