-- ==== Sys2Proof/Syntax.lean ====
section
/-! DEFINITION. The instructions as syntax: one constructor per row of spec/opcode_table.json (30_encoding.md R71, R73), and the
names the dispatch block uses for them (10_state.md R43, R45). -/
namespace Sys2Proof

/-- An instruction of the opcode table (R73). A register operand is the whole operand byte, as fetched: `reg(b)` checks it when
the instruction reads it, and a byte above 7 raises IllegalRegisterIndex then (R72, R12), so the byte is kept here. An
unassigned opcode byte is no `Instr`: the decoder answers `none` for it and the step skips it (R76, R105). -/
inductive Instr where
  /-- LDI r, imm: R120 -/
  | ldi (r imm : Byte)
  /-- PRN r: R121 -/
  | prn (r : Byte)
  /-- HLT: R106 -/
  | hlt
  /-- MUL ra, rb: R136 -/
  | mul (ra rb : Byte)
  /-- ADD ra, rb: R135 -/
  | add (ra rb : Byte)
  /-- PUSH r: R150 -/
  | push (r : Byte)
  /-- POP r: R151 -/
  | pop (r : Byte)
  /-- CALL r: R152 -/
  | call (r : Byte)
  /-- RET: R153 -/
  | ret
  /-- CMP ra, rb: R137 -/
  | cmp (ra rb : Byte)
  /-- JMP r: R170 -/
  | jmp (r : Byte)
  /-- JEQ r: R171 -/
  | jeq (r : Byte)
  /-- JNE r: R172 -/
  | jne (r : Byte)
deriving DecidableEq, Repr

/-- The thirteen instruction classes that `instruction_dispatch` tells apart; UNASSIGNED is the absence of one (R45, R104). -/
inductive OpClass where
  | ldi | prn | hlt | mul | add | push | pop | call | ret | cmp | jmp | jeq | jne
deriving DecidableEq, Repr

/-- What an operand byte is (R71, R72). -/
inductive OperandKind where
  | reg
  | imm
deriving DecidableEq, Repr

/-- The four instruction formats (R71). -/
inductive Format where
  /-- opcode alone -/
  | f0
  /-- opcode, register -/
  | fr
  /-- opcode, register, register -/
  | frr
  /-- opcode, register, immediate -/
  | fri
deriving DecidableEq, Repr

/-- The operation input of `alu_8bit`: the five supported operations, or any other value (R43, R130). -/
inductive AluOp where
  | add | sub | mul | div | cmp
  | other (value : Nat)
deriving DecidableEq, Repr

/-- The select input of the program counter block (R41). -/
inductive PcSel where
  | seq | target | ret | hold
deriving DecidableEq, Repr

end Sys2Proof
end

