-- ==== Sys2Proof/WellFormed.lean ====
section
/-! DEFINITION. Well-formed instructions: every register operand byte names a register, 0 to 7 (30_encoding.md R72). An
ill-formed instruction still decodes and still runs: it raises IllegalRegisterIndex (R77, R202). -/
namespace Sys2Proof

/-- A register operand byte that `reg(b)` accepts (R12, R72). -/
def isRegByte (b : Byte) : Bool := decide (b.toNat < 8)

/-- Every register operand is in 0..7; every immediate byte is legal (R72, R77). -/
def Instr.wf : Instr → Bool
  | .ldi r _   => isRegByte r
  | .prn r     => isRegByte r
  | .hlt       => true
  | .mul ra rb => isRegByte ra && isRegByte rb
  | .add ra rb => isRegByte ra && isRegByte rb
  | .push r    => isRegByte r
  | .pop r     => isRegByte r
  | .call r    => isRegByte r
  | .ret       => true
  | .cmp ra rb => isRegByte ra && isRegByte rb
  | .jmp r     => isRegByte r
  | .jeq r     => isRegByte r
  | .jne r     => isRegByte r

end Sys2Proof
end

