-- ==== Sys2Proof/Decode.lean ====
section
/-! DEFINITION. The opcode map, the decoder and the encoder (30_encoding.md R70 to R78), and the dispatch block's table
(10_state.md R45, 40_execution_loop.md R104). -/
namespace Sys2Proof

/-- The operands of a format, in byte order (R71). -/
def Format.operands : Format → List OperandKind
  | .f0  => []
  | .fr  => [.reg]
  | .frr => [.reg, .reg]
  | .fri => [.reg, .imm]

/-- The length in bytes: operand count + 1 (R70, R71; C1). -/
def Format.length (f : Format) : Nat := f.operands.length + 1

/-- The format of each class: the "format" column of R73. -/
def OpClass.format : OpClass → Format
  | .hlt | .ret => .f0
  | .prn | .push | .pop | .call | .jmp | .jeq | .jne => .fr
  | .add | .mul | .cmp => .frr
  | .ldi => .fri

/-- The class of an instruction. -/
def Instr.opClass : Instr → OpClass
  | .ldi _ _ => .ldi
  | .prn _   => .prn
  | .hlt     => .hlt
  | .mul _ _ => .mul
  | .add _ _ => .add
  | .push _  => .push
  | .pop _   => .pop
  | .call _  => .call
  | .ret     => .ret
  | .cmp _ _ => .cmp
  | .jmp _   => .jmp
  | .jeq _   => .jeq
  | .jne _   => .jne

/-- The length of an instruction in bytes, fixed by its opcode alone (R70). -/
def Instr.length (i : Instr) : Nat := i.opClass.format.length

/-- The opcode byte of each class: the "code" column of R73. -/
def opcode : OpClass → Byte
  | .ldi  => 130
  | .prn  => 71
  | .hlt  => 1
  | .mul  => 162
  | .add  => 160
  | .push => 69
  | .pop  => 70
  | .call => 80
  | .ret  => 17
  | .cmp  => 167
  | .jmp  => 84
  | .jeq  => 85
  | .jne  => 86

/-- The class of an opcode byte, `none` for UNASSIGNED: all 8 bits are matched against the thirteen codes (R76). -/
def classOf (opc : Byte) : Option OpClass :=
  match opc.toNat with
  | 130 => some .ldi
  | 71  => some .prn
  | 1   => some .hlt
  | 162 => some .mul
  | 160 => some .add
  | 69  => some .push
  | 70  => some .pop
  | 80  => some .call
  | 17  => some .ret
  | 167 => some .cmp
  | 84  => some .jmp
  | 85  => some .jeq
  | 86  => some .jne
  | _   => none

/-- The opcode byte of an instruction, as a fault records it (R13, R201). -/
def opcodeOf (i : Instr) : Byte := opcode i.opClass

/-- Decoding of the three bytes at `pc`, `A(pc+1)` and `A(pc+2)` (R71, R75, R76). Total; `none` is UNASSIGNED, the one thing an
opcode byte can be beside the thirteen instructions (R77). Operand bytes an instruction does not have are ignored. -/
def decodeWindow (opc op1 op2 : Byte) : Option Instr :=
  match classOf opc with
  | none       => none
  | some .ldi  => some (.ldi op1 op2)
  | some .prn  => some (.prn op1)
  | some .hlt  => some .hlt
  | some .mul  => some (.mul op1 op2)
  | some .add  => some (.add op1 op2)
  | some .push => some (.push op1)
  | some .pop  => some (.pop op1)
  | some .call => some (.call op1)
  | some .ret  => some .ret
  | some .cmp  => some (.cmp op1 op2)
  | some .jmp  => some (.jmp op1)
  | some .jeq  => some (.jeq op1)
  | some .jne  => some (.jne op1)

/-- Why a string of bytes decodes to no instruction. -/
inductive DecodeError where
  /-- there is no byte at all -/
  | noBytes
  /-- the opcode byte is none of the thirteen codes (R76) -/
  | unassigned (opc : Byte)
  /-- the opcode is assigned and its operand bytes are missing -/
  | truncated (opc : Byte)
deriving DecidableEq, Repr

/-- Decoding of a string of bytes: the instruction at its head and the bytes after it, or the reason by name. -/
def decode : List Byte → Except DecodeError (Instr × List Byte)
  | [] => .error .noBytes
  | opc :: rest =>
    match decodeWindow opc (rest.getD 0 0) (rest.getD 1 0) with
    | none   => .error (.unassigned opc)
    | some i =>
      if i.length ≤ rest.length + 1 then .ok (i, rest.drop (i.length - 1)) else .error (.truncated opc)

/-- The bytes of an instruction: the opcode, then its operand bytes in order (R70, R71, R75). -/
def encode : Instr → List Byte
  | .ldi r imm => [opcode .ldi, r, imm]
  | .prn r     => [opcode .prn, r]
  | .hlt       => [opcode .hlt]
  | .mul ra rb => [opcode .mul, ra, rb]
  | .add ra rb => [opcode .add, ra, rb]
  | .push r    => [opcode .push, r]
  | .pop r     => [opcode .pop, r]
  | .call r    => [opcode .call, r]
  | .ret       => [opcode .ret]
  | .cmp ra rb => [opcode .cmp, ra, rb]
  | .jmp r     => [opcode .jmp, r]
  | .jeq r     => [opcode .jeq, r]
  | .jne r     => [opcode .jne, r]

/-- Byte `k` of an instruction whose `nbits` bits are `w`, the first byte the least significant; every bit above is 0. -/
def tableByte (nbits w k : Nat) : Byte := BitVec.ofNat 8 (w % 2 ^ nbits / 256 ^ k)

/-- The instruction the decoder reads from a word numbered as spec/opcode_table.json numbers it. -/
def decodeTableWord (nbits w : Nat) : Option Instr :=
  decodeWindow (tableByte nbits w 0) (tableByte nbits w 1) (tableByte nbits w 2)

/-- The ALU operation the dispatch block selects (R45, R134: only ADD, MUL and CMP). -/
def OpClass.aluOp : OpClass → Option AluOp
  | .add => some .add
  | .mul => some .mul
  | .cmp => some .cmp
  | _    => none

/-- The program counter select of a class, given FL.E (R27, R45, R171, R172). -/
def OpClass.pcSel (e : Bool) : OpClass → PcSel
  | .hlt        => .hold
  | .ret        => .ret
  | .jmp | .call => .target
  | .jeq        => if e then .target else .seq
  | .jne        => if e then .seq else .target
  | _           => .seq

/-- The outputs of `instruction_dispatch` (R45). -/
structure Dispatched where
  cls      : Option OpClass
  len      : Nat
  operands : List OperandKind
  aluOp    : Option AluOp
  pcSel    : PcSel
deriving DecidableEq, Repr

/-- `instruction_dispatch`: a pure, total function of the opcode byte and `fl[0]` (R45, R104); length 1 for UNASSIGNED. -/
def dispatch (opc : Byte) (e : Bool) : Dispatched :=
  match classOf opc with
  | none   => { cls := none, len := 1, operands := [], aluOp := none, pcSel := .seq }
  | some c => { cls := some c, len := c.format.length, operands := c.format.operands, aluOp := c.aluOp, pcSel := c.pcSel e }

end Sys2Proof
end

