-- ==== Sys2Proof/Machine/State.lean ====
section
/-! DEFINITION. Everything the spec gives the machine, as plain data (10_state.md R20 to R37), its reset value (70_reset_and_hazards.md
R230), and the reasons a step can stop. -/
namespace Sys2Proof.Machine

/-- The memory: (address, byte) pairs in canonical form (`Memory.wf`). An address that is not listed reads as `Memory.unlisted`. -/
abbrev Memory := List Host.Cell

/-- What an unlisted address reads as: memory is initialised to zero (R35, R230). -/
abbrev Memory.unlisted : Byte := 0

/-- The canonical form: addresses strictly rising, all inside 0..255 (R50), no entry equal to what an unlisted address reads as. -/
abbrev Memory.wf (m : Memory) : Prop :=
  m.Pairwise (fun c d => c.1 < d.1) ∧ ∀ c ∈ m, c.1 < 256 ∧ c.2 ≠ Memory.unlisted

/-- A fault of the machine with the detail it records (60_exceptions.md R201). This is state, not a stop of the model: raising
one ends in a next state whose status is `faulted` (R13, R200, R209). -/
inductive FaultCause where
  /-- code 1: the ALU is driven with an operation outside the five; no opcode does (R205). Detail: the operation. -/
  | unsupportedOperation (op : Nat)
  /-- code 2: a register operand byte above 7 (R202). Detail: the byte. -/
  | illegalRegisterIndex (b : Byte)
  /-- code 3: an arithmetic result outside 0..255, only when OVERFLOW_POLICY = Fault (R203). Detail: the exact result. -/
  | arithmeticOverflow (exact : Int)
  /-- code 4: the dormant DIV with divisor 0 (R206). Detail: the dividend. -/
  | divideByZero (dividend : Byte)
  /-- code 5: a computed address outside 0..255, only when ADDR_POLICY = Fault (R204). Detail: the integer address. -/
  | addressOutOfRange (address : Int)
deriving DecidableEq, Repr

/-- The record of a fault (R13, R33): the cause (its code and its detail), the pc and the opcode byte of the faulting instruction. -/
structure FaultInfo where
  cause  : FaultCause
  pc     : Byte
  opcode : Byte
deriving DecidableEq, Repr

/-- The state of the loop (R33, R100). -/
inductive Status where
  /-- steps execute -/
  | running
  /-- terminal, entered only by HLT -/
  | halted
  /-- terminal, entered by a fatal error -/
  | faulted (info : FaultInfo)
deriving DecidableEq, Repr

/-- The whole state of the machine; nothing else is state (R20). -/
structure State where
  /-- the 256 cells, shared by code, data and stack (R35, R50) -/
  mem    : Memory
  /-- R0 to R7; `x[7]` is also the stack pointer SP (R21, R22) -/
  x      : Vector Byte 8
  /-- the program counter (R26) -/
  pc     : Byte
  /-- the flags register: E bit 0, G bit 1, L bit 2 (R29) -/
  fl     : FlagWord
  /-- the state of the loop (R33) -/
  status : Status
  /-- the bytes PRN has emitted, oldest first (R34) -/
  out    : List Byte
deriving DecidableEq, Repr

/-- The reset state: no value is left unspecified (R230). -/
def State.reset : State where
  mem    := []
  x      := Vector.replicate 8 0
  pc     := 0
  fl     := 0
  status := .running
  out    := []

/-- Reasons the MODEL stops with a fault outside the machine's own state: there is none. Every fault of the LS-8 is a state the
machine enters (R200, R209) and every address exists (R50), so no step of the model ever stops so (log entry 5; safe). -/
inductive Fault where
deriving DecidableEq, Repr

/-- Reasons the model refuses. No step is ever refused. -/
inductive Refusal where
  /-- raised by `exec` for an instruction that has no meaning yet: none is left; safe -/
  | notModelled (mnemonic : String)
  /-- raised by the host operation `load` alone: the image has more than 256 bytes (R207, ImageTooLong); safe -/
  | imageTooLong (length : Nat)
  /-- raised by the host operation `load` alone: the image holds a value outside 0..255 (R207, ImageByteOutOfRange); safe -/
  | imageByteOutOfRange (value : Int)
deriving DecidableEq, Repr

end Sys2Proof.Machine
end

