-- ==== Sys2Proof/Machine/Ops.lean ====
section
/-! DEFINITION. The named operations every meaning is written over: the policies in force, the normalisers, memory, the register
file, the program counter, the stack pointer, the output, and taking a fault. -/
namespace Sys2Proof.Machine

/-- The policies the spec decides: both Wrap (00_scope.md R8; D2, D3; log entry 1). -/
def decided : Config := { addrPolicy := .wrap, overflowPolicy := .wrap }

/-! ## Normalisers (R12) -/

/-- `A(e)`: an integer into an address, according to ADDR_POLICY (R12). -/
def normAddr (cfg : Config) (e : Int) : Except FaultCause Byte :=
  match cfg.addrPolicy with
  | .wrap  => .ok (BitVec.ofInt 8 e)
  | .clamp => .ok (BitVec.ofInt 8 (min (max e 0) 255))
  | .fault => if 0 ≤ e ∧ e ≤ 255 then .ok (BitVec.ofInt 8 e) else .error (.addressOutOfRange e)

/-- `V(e)`: an integer into a data value, according to OVERFLOW_POLICY (R12). -/
def normValue (cfg : Config) (e : Int) : Except FaultCause Byte :=
  match cfg.overflowPolicy with
  | .wrap  => .ok (BitVec.ofInt 8 e)
  | .fault => if 0 ≤ e ∧ e ≤ 255 then .ok (BitVec.ofInt 8 e) else .error (.arithmeticOverflow e)

/-- `reg(b)`: an operand byte into a register index (R12, R72, R202). -/
def regIndex (b : Byte) : Except FaultCause RegIndex :=
  if h : b.toNat < 8 then .ok ⟨b.toNat, h⟩ else .error (.illegalRegisterIndex b)

/-! ## Memory (20_memory.md R50, R51) -/

/-- The byte listed at address `a`, or what an unlisted address reads as. -/
def Memory.get : Memory → Nat → Byte
  | [], _ => Memory.unlisted
  | (b, w) :: rest, a => if a = b then w else Memory.get rest a

/-- The list with address `a` holding `v`, kept in canonical form. -/
def Memory.put : Memory → Nat → Byte → Memory
  | [], a, v => if v = Memory.unlisted then [] else [(a, v)]
  | (b, w) :: rest, a, v =>
    if a < b then (if v = Memory.unlisted then (b, w) :: rest else (a, v) :: (b, w) :: rest)
    else if a = b then (if v = Memory.unlisted then rest else (a, v) :: rest)
    else (b, w) :: Memory.put rest a v

/-- `MemRead(a, 1)` (R51). -/
def Memory.read (m : Memory) (a : Byte) : Byte := m.get a.toNat

/-- `MemWrite(a, 1, v)` (R51). -/
def Memory.write (m : Memory) (a v : Byte) : Memory := m.put a.toNat v

/-- The byte of memory at `a`. -/
def State.readByte (s : State) (a : Byte) : Byte := s.mem.read a

/-- The state with byte `v` at address `a`. -/
def State.writeByte (a v : Byte) (s : State) : State := { s with mem := s.mem.write a v }

/-! ## Register file (10_state.md R21, R22) -/

/-- The index of the stack pointer (R22). -/
def spIndex : RegIndex := 7

/-- `x[i]` (R11). -/
def State.reg (s : State) (i : RegIndex) : Byte := s.x[i.val]

/-- `x[i] <- v` (R11). -/
def State.setReg (i : RegIndex) (v : Byte) (s : State) : State := { s with x := s.x.set i.val v }

/-- `SP`, another name for `x[7]` (R11, R22). -/
def State.sp (s : State) : Byte := s.reg spIndex

/-- `SP <- v` (R11, R22). -/
def State.setSp (v : Byte) (s : State) : State := s.setReg spIndex v

/-! ## Stack pointer control (10_state.md R44) -/

/-- `sp_dec = A(sp - 1)` (R44). -/
def spDec (cfg : Config) (sp : Byte) : Except FaultCause Byte := normAddr cfg ((sp.toNat : Int) - 1)

/-- `sp_inc = A(sp + 1)` (R44). -/
def spInc (cfg : Config) (sp : Byte) : Except FaultCause Byte := normAddr cfg ((sp.toNat : Int) + 1)

/-- `SP <- A(SP - 1)` (R150, R152). -/
def State.decSp (cfg : Config) (s : State) : Except FaultCause State := do
  let sp ← spDec cfg s.sp
  return s.setSp sp

/-- `SP <- A(SP + 1)` (R151, R153). -/
def State.incSp (cfg : Config) (s : State) : Except FaultCause State := do
  let sp ← spInc cfg s.sp
  return s.setSp sp

/-! ## Program counter (10_state.md R26, R27) -/

/-- `A(pc + k)`, the address of byte `k` of the instruction at pc, and of what follows an instruction of `k` bytes (R26, R27). -/
def State.pcPlus (cfg : Config) (k : Nat) (s : State) : Except FaultCause Byte := normAddr cfg ((s.pc.toNat : Int) + k)

/-- `pc <- t` (R11). -/
def State.setPc (t : Byte) (s : State) : State := { s with pc := t }

/-- `pc <- A(pc + len)`, the sequential way (R27). -/
def State.advance (cfg : Config) (len : Nat) (s : State) : Except FaultCause State := do
  let pc ← s.pcPlus cfg len
  return s.setPc pc

/-! ## Output and status (10_state.md R33, R34) -/

/-- `emit(v)`: `out <- out ++ [v]` (R11, R34). -/
def State.emit (v : Byte) (s : State) : State := { s with out := s.out ++ [v] }

/-- `status <- v` (R33). -/
def State.setStatus (v : Status) (s : State) : State := { s with status := v }

/-! ## Faults (60_exceptions.md R200, R201, R209) -/

/-- The fault's code (R201). -/
def FaultCause.code : FaultCause → Nat
  | .unsupportedOperation _ => 1
  | .illegalRegisterIndex _ => 2
  | .arithmeticOverflow _   => 3
  | .divideByZero _         => 4
  | .addressOutOfRange _    => 5

/-- The detail the fault records (R201). -/
def FaultCause.detail : FaultCause → Int
  | .unsupportedOperation op => op
  | .illegalRegisterIndex b  => b.toNat
  | .arithmeticOverflow e    => e
  | .divideByZero a          => a.toNat
  | .addressOutOfRange a     => a

/-- Taking a fault: the instruction's writes are discarded, status becomes `Faulted(F, pc, opcode, info)`, and nothing else
changes; `s` is the state before the instruction, whose pc is the faulting instruction's address (R13, R200, R209). There is no
return from a fault (R211). -/
def takeFault (c : FaultCause) (opc : Byte) (s : State) : State :=
  s.setStatus (.faulted { cause := c, pc := s.pc, opcode := opc })

/-- One instruction: all the writes of its pseudocode, or the fault it raises and none of them (R13, R46). -/
def perform (opc : Byte) (body : State → Except FaultCause State) (s : State) : Host.Outcome State Fault Refusal :=
  match body s with
  | .ok t    => .next t
  | .error c => .next (takeFault c opc s)

end Sys2Proof.Machine
end

