-- ==== Sys2Proof/Machine/Flags.lean ====
section
/-! DEFINITION. The flags register and its one computation, the unsigned compare (10_state.md R29, R30; 42_alu.md R132). -/
namespace Sys2Proof.Machine

/-- `FL.E`, bit 0: the last CMP found equal (R29). -/
def State.flagE (s : State) : Bool := s.fl.getLsbD 0

/-- `FL.G`, bit 1: the last CMP found greater (R29). -/
def State.flagG (s : State) : Bool := s.fl.getLsbD 1

/-- `FL.L`, bit 2: the last CMP found less (R29). -/
def State.flagL (s : State) : Bool := s.fl.getLsbD 2

/-- `FL <- f`: all three bits are replaced together (R30, R42). -/
def State.setFl (f : FlagWord) (s : State) : State := { s with fl := f }

/-- The comparison law: exactly one of L, G and E, comparing as unsigned integers (R132). -/
def compareFlags (a b : Byte) : FlagWord :=
  if a.toNat < b.toNat then 0b100 else if b.toNat < a.toNat then 0b010 else 0b001

end Sys2Proof.Machine
end

