-- ==== Sys2Proof/Machine/Operands.lean ====
section
/-! DEFINITION. Reading an instruction's operands (00_scope.md R15, 30_encoding.md R72). The operand bytes were read at the start of
the step, with the opcode; what is left for the instruction is what each read and each `reg` can raise, in pseudocode order
(60_exceptions.md R210). -/
namespace Sys2Proof.Machine

/-- `reg(MemRead(A(pc + k), 1))`, where `b` is the byte read there: the address first, then the register check (R72, R210). -/
def regOperand (cfg : Config) (k : Nat) (b : Byte) (s : State) : Except FaultCause RegIndex := do
  let _ ← s.pcPlus cfg k
  regIndex b

/-- `MemRead(A(pc + k), 1)`, where `b` is the byte read there: an unsigned immediate, not extended (R72). -/
def immOperand (cfg : Config) (k : Nat) (b : Byte) (s : State) : Except FaultCause Byte := do
  let _ ← s.pcPlus cfg k
  return b

end Sys2Proof.Machine
end

