-- ==== Sys2Proof/Machine/Alu.lean ====
section
/-! DEFINITION. The `alu_8bit` block (42_alu.md R130 to R134, 10_state.md R43) and the instructions ADD, MUL and CMP (R135 to R137). -/
namespace Sys2Proof.Machine

/-- What the ALU answers when it does not fault: a result byte y, or a flag value fl (R130). -/
inductive AluOut where
  | value (y : Byte)
  | flags (fl : FlagWord)
deriving DecidableEq, Repr

/-- `alu(op, a, b)`: a pure function, the two dormant operations SUB and DIV included (R130 to R134). -/
def alu (cfg : Config) (op : AluOp) (a b : Byte) : Except FaultCause AluOut :=
  match op with
  | .add     => (normValue cfg ((a.toNat : Int) + b.toNat)).map .value
  | .sub     => (normValue cfg ((a.toNat : Int) - b.toNat)).map .value
  | .mul     => (normValue cfg ((a.toNat : Int) * b.toNat)).map .value
  | .div     => if b = 0 then .error (.divideByZero a) else .ok (.value (Config.divFn a b))
  | .cmp     => .ok (.flags (compareFlags a b))
  | .other n => .error (.unsupportedOperation n)

/-- What the caller of the ALU does with its answer: y goes to regA, fl to FL (R130; C6). -/
def State.writeBack (ra : RegIndex) (o : AluOut) (s : State) : State :=
  match o with
  | .value y  => s.setReg ra y
  | .flags fl => s.setFl fl

/-- The pseudocode ADD, MUL and CMP share: both registers are read, the ALU answers, its answer is written, pc goes past the
three bytes (R135, R136, R137). -/
def aluBody (cfg : Config) (op : AluOp) (ra rb : Byte) (s : State) : Except FaultCause State := do
  let ia ← regOperand cfg 1 ra s
  let ib ← regOperand cfg 2 rb s
  let o ← alu cfg op (s.reg ia) (s.reg ib)
  (s.writeBack ia o).advance cfg 3

/-- ADD: regA ← regA + regB (R135). -/
def addBody (cfg : Config) (ra rb : Byte) (s : State) : Except FaultCause State := aluBody cfg .add ra rb s

/-- MUL: regA ← regA × regB (R136). -/
def mulBody (cfg : Config) (ra rb : Byte) (s : State) : Except FaultCause State := aluBody cfg .mul ra rb s

/-- CMP: flags per compare of regA and regB (R137). -/
def cmpBody (cfg : Config) (ra rb : Byte) (s : State) : Except FaultCause State := aluBody cfg .cmp ra rb s

/-- ADD under the decided policies. -/
def execAdd (ra rb : Byte) (s : State) : Host.Outcome State Fault Refusal := perform (opcode .add) (addBody decided ra rb) s

/-- MUL under the decided policies. -/
def execMul (ra rb : Byte) (s : State) : Host.Outcome State Fault Refusal := perform (opcode .mul) (mulBody decided ra rb) s

/-- CMP under the decided policies. -/
def execCmp (ra rb : Byte) (s : State) : Host.Outcome State Fault Refusal := perform (opcode .cmp) (cmpBody decided ra rb) s

end Sys2Proof.Machine
end

