-- ==== Sys2Proof/Machine/Branch.lean ====
section
/-! DEFINITION. Branches: JMP, JEQ and JNE, every target absolute and from a register (44_branches.md R170 to R173). -/
namespace Sys2Proof.Machine

/-- JMP: PC ← reg's value (R170). -/
def jmpBody (cfg : Config) (r : Byte) (s : State) : Except FaultCause State := do
  let rt ← regOperand cfg 1 r s
  return s.setPc (s.reg rt)

/-- A jump to `x[rt]` when `taken`, else pc ← A(pc + 2); the register is checked either way (R171, R172, R202). -/
def branchBody (cfg : Config) (taken : Bool) (r : Byte) (s : State) : Except FaultCause State := do
  let rt ← regOperand cfg 1 r s
  if taken then return s.setPc (s.reg rt) else s.advance cfg 2

/-- JEQ: taken when FL.E is 1 (R171). -/
def jeqBody (cfg : Config) (r : Byte) (s : State) : Except FaultCause State := branchBody cfg s.flagE r s

/-- JNE: taken when FL.E is 0 (R172). -/
def jneBody (cfg : Config) (r : Byte) (s : State) : Except FaultCause State := branchBody cfg (!s.flagE) r s

/-- JMP under the decided policies. -/
def execJmp (r : Byte) (s : State) : Host.Outcome State Fault Refusal := perform (opcode .jmp) (jmpBody decided r) s

/-- JEQ under the decided policies. -/
def execJeq (r : Byte) (s : State) : Host.Outcome State Fault Refusal := perform (opcode .jeq) (jeqBody decided r) s

/-- JNE under the decided policies. -/
def execJne (r : Byte) (s : State) : Host.Outcome State Fault Refusal := perform (opcode .jne) (jneBody decided r) s

end Sys2Proof.Machine
end

