-- ==== Sys2Proof/Machine/Control.lean ====
section
/-! DEFINITION. HLT and the unassigned opcodes (40_execution_loop.md R105, R106). -/
namespace Sys2Proof.Machine

/-- HLT: status ← Halted; pc keeps the address of the HLT byte, and no policy can make it fault (R106). -/
def hltBody (s : State) : Except FaultCause State := .ok (s.setStatus .halted)

/-- HLT. -/
def execHlt (s : State) : Host.Outcome State Fault Refusal := perform (opcode .hlt) hltBody s

/-- UNASSIGNED, the silent skip: pc ← A(pc + 1) and nothing else (R105). -/
def unassignedBody (cfg : Config) (s : State) : Except FaultCause State := s.advance cfg 1

/-- The step of an unassigned opcode byte `opc` (R105). It is no `Instr`, so `exec` has no arm for it. -/
def execUnassigned (cfg : Config) (opc : Byte) (s : State) : Host.Outcome State Fault Refusal :=
  perform opc (unassignedBody cfg) s

end Sys2Proof.Machine
end

