-- ==== Sys2Proof/Machine/Data.lean ====
section
/-! DEFINITION. Data movement and output: LDI and PRN (41_data_and_output.md R120, R121). -/
namespace Sys2Proof.Machine

/-- LDI: reg ← imm (R120). -/
def ldiBody (cfg : Config) (r imm : Byte) (s : State) : Except FaultCause State := do
  let rd ← regOperand cfg 1 r s
  let v ← immOperand cfg 2 imm s
  (s.setReg rd v).advance cfg 3

/-- PRN: emit reg's value (R121). -/
def prnBody (cfg : Config) (r : Byte) (s : State) : Except FaultCause State := do
  let rd ← regOperand cfg 1 r s
  (s.emit (s.reg rd)).advance cfg 2

/-- LDI under the decided policies. -/
def execLdi (r imm : Byte) (s : State) : Host.Outcome State Fault Refusal := perform (opcode .ldi) (ldiBody decided r imm) s

/-- PRN under the decided policies. -/
def execPrn (r : Byte) (s : State) : Host.Outcome State Fault Refusal := perform (opcode .prn) (prnBody decided r) s

end Sys2Proof.Machine
end

