-- ==== Sys2Proof/Machine/Stack.lean ====
section
/-! DEFINITION. Stack and subroutines: PUSH, POP, CALL and RET (43_stack_and_subroutine.md R150 to R153). Each line reads what the
lines before it wrote (00_scope.md R14), which decides the forms that name R7. -/
namespace Sys2Proof.Machine

/-- PUSH: SP ← SP−1; memory[SP] ← reg, the register read after the SP write (R150). -/
def pushBody (cfg : Config) (r : Byte) (s : State) : Except FaultCause State := do
  let rs ← regOperand cfg 1 r s
  let s1 ← s.decSp cfg
  (s1.writeByte s1.sp (s1.reg rs)).advance cfg 2

/-- POP: reg ← memory[SP]; SP ← SP+1, SP read after the register write (R151). -/
def popBody (cfg : Config) (r : Byte) (s : State) : Except FaultCause State := do
  let rd ← regOperand cfg 1 r s
  let s1 ← (s.setReg rd (s.readByte s.sp)).incSp cfg
  s1.advance cfg 2

/-- CALL: SP ← SP−1; memory[SP] ← PC+2; PC ← reg's value, the register read after the SP write (R152). -/
def callBody (cfg : Config) (r : Byte) (s : State) : Except FaultCause State := do
  let rt ← regOperand cfg 1 r s
  let ret ← s.pcPlus cfg 2
  let s1 ← s.decSp cfg
  return (s1.writeByte s1.sp ret).setPc (s1.reg rt)

/-- RET: PC ← memory[SP]; SP ← SP+1 (R153). -/
def retBody (cfg : Config) (s : State) : Except FaultCause State :=
  (s.setPc (s.readByte s.sp)).incSp cfg

/-- PUSH under the decided policies. -/
def execPush (r : Byte) (s : State) : Host.Outcome State Fault Refusal := perform (opcode .push) (pushBody decided r) s

/-- POP under the decided policies. -/
def execPop (r : Byte) (s : State) : Host.Outcome State Fault Refusal := perform (opcode .pop) (popBody decided r) s

/-- CALL under the decided policies. -/
def execCall (r : Byte) (s : State) : Host.Outcome State Fault Refusal := perform (opcode .call) (callBody decided r) s

/-- RET under the decided policies. -/
def execRet (s : State) : Host.Outcome State Fault Refusal := perform (opcode .ret) (retBody decided) s

end Sys2Proof.Machine
end

