-- ==== Sys2Proof/Machine/Fetch.lean ====
section
/-! DEFINITION. Fetching an instruction's bytes and one turn of the loop (40_execution_loop.md R103, R107; 20_memory.md R60). -/
namespace Sys2Proof.Machine

/-- The byte at `A(pc + k)`, read at the start of the step (R15, R26, R60). Where the policy makes `A(pc + k)` raise, the
instruction raises before it uses the byte (`regOperand`, `immOperand`), so what stands here then is never seen. -/
def State.fetchByte (cfg : Config) (k : Nat) (s : State) : Byte :=
  match s.pcPlus cfg k with
  | .ok a    => s.readByte a
  | .error _ => 0

/-- The instruction at pc, decoded from the opcode byte `mem[pc]` and the two bytes after it; `none` for UNASSIGNED (R76, R103). -/
def State.fetch (cfg : Config) (s : State) : Option Instr :=
  decodeWindow (s.readByte s.pc) (s.fetchByte cfg 1) (s.fetchByte cfg 2)

/-- One host `step()`: from Running, fetch, decode and run one instruction with `run`, or skip an unassigned opcode; from Halted
and from Faulted, change nothing (R103, R105, R107). -/
def cycle (cfg : Config) (run : Instr → State → Host.Outcome State Fault Refusal) (s : State) : Host.Outcome State Fault Refusal :=
  match s.status with
  | .running =>
    match s.fetch cfg with
    | some i => run i s
    | none   => execUnassigned cfg (s.readByte s.pc) s
  | .halted    => .next s
  | .faulted _ => .next s

/-- The state with the bytes `bs` at `a`, `a + 1`, …, addresses taken mod 256. -/
def State.writeBytes : Byte → List Byte → State → State
  | _, [], s      => s
  | a, v :: vs, s => State.writeBytes (a + 1) vs (s.writeByte a v)

/-- Three bytes placed at pc in a running machine: what a fetch under the decided policies takes. -/
def State.placeAtPc (b0 b1 b2 : Byte) (s : State) : State :=
  (s.writeBytes s.pc [b0, b1, b2]).setStatus .running

end Sys2Proof.Machine
end

