-- ==== Sys2Proof/Machine/Step.lean ====
section
/-! DEFINITION. The step of the machine under the decided policies, and placing an instruction where it fetches. -/
namespace Sys2Proof.Machine

/-- One step: one whole instruction (R103), the policies as the spec decides them (R8). -/
def step (s : State) : Host.Outcome State Fault Refusal := cycle decided exec s

/-- `s` with the instruction whose bits are `w` (the bits above `nbits` zero) stored at pc, pc + 1 and pc + 2, and running, so that
the next step fetches and runs exactly it. It stands for the host's load (R101; log entry 6). -/
def State.withFetchWord (s : State) (nbits w : Nat) : State :=
  s.placeAtPc (tableByte nbits w 0) (tableByte nbits w 1) (tableByte nbits w 2)

end Sys2Proof.Machine
end

