-- ==== Sys2Proof/Machine/Policy.lean ====
section
/-! DEFINITION. The same machine under any policies (00_scope.md R8: a model may take each as an argument; 93_implementation_defined.md
U1, U2). `exec` and `step` are these at `decided`. -/
namespace Sys2Proof.Machine

/-- The pseudocode of each instruction, the policies left as a parameter (R8, R24). -/
def bodyUnder (cfg : Config) (i : Instr) (s : State) : Except FaultCause State :=
  match i with
  | .ldi r imm => ldiBody cfg r imm s
  | .prn r     => prnBody cfg r s
  | .hlt       => hltBody s
  | .mul ra rb => mulBody cfg ra rb s
  | .add ra rb => addBody cfg ra rb s
  | .push r    => pushBody cfg r s
  | .pop r     => popBody cfg r s
  | .call r    => callBody cfg r s
  | .ret       => retBody cfg s
  | .cmp ra rb => cmpBody cfg ra rb s
  | .jmp r     => jmpBody cfg r s
  | .jeq r     => jeqBody cfg r s
  | .jne r     => jneBody cfg r s

/-- One instruction under the policies `cfg`. -/
def execUnder (cfg : Config) (i : Instr) (s : State) : Host.Outcome State Fault Refusal :=
  perform (opcodeOf i) (bodyUnder cfg i) s

/-- One step under the policies `cfg` (R103). -/
def stepUnder (cfg : Config) (s : State) : Host.Outcome State Fault Refusal := cycle cfg (execUnder cfg) s

end Sys2Proof.Machine
end

