-- ==== Sys2Proof/Machine/Datapath.lean ====
section
/-! DEFINITION. The machine as its seven sub-blocks wired together (00_scope.md R2, 10_state.md R40 to R46). The pseudocode is the
normative behaviour; this is the spec's own decomposition of it, each block a function of its ports. -/
namespace Sys2Proof.Machine

/-- The inputs of `register_file_8x8` (R40). -/
structure RegFileIn where
  raIdx   : RegIndex
  rbIdx   : RegIndex
  wEn     : Bool
  wIdx    : RegIndex
  wData   : Byte
  spWEn   : Bool
  spWData : Byte
deriving DecidableEq, Repr

/-- The outputs of `register_file_8x8` (R40). -/
structure RegFileOut where
  raData : Byte
  rbData : Byte
  sp     : Byte
deriving DecidableEq, Repr

/-- The read side of `register_file_8x8` (R40). -/
def regFileOut (x : Vector Byte 8) (ra rb : RegIndex) : RegFileOut :=
  { raData := x[ra.val], rbData := x[rb.val], sp := x[spIndex.val] }

/-- The write side of `register_file_8x8`: the general write, then the SP write (R40). -/
def regFileNext (x : Vector Byte 8) (p : RegFileIn) : Vector Byte 8 :=
  let y := if p.wEn then x.set p.wIdx.val p.wData else x
  if p.spWEn then y.set spIndex.val p.spWData else y

/-- `program_counter`: its next value (R41). -/
def pcNext (cfg : Config) (sel : PcSel) (len : Nat) (target ret pc : Byte) : Except FaultCause Byte :=
  match sel with
  | .seq    => normAddr cfg ((pc.toNat : Int) + len)
  | .target => .ok target
  | .ret    => .ok ret
  | .hold   => .ok pc

/-- `flags_register`: its next value (R42). -/
def flagsNext (fl : FlagWord) (flWe : Bool) (flIn : FlagWord) : FlagWord := if flWe then flIn else fl

/-- The outputs of `alu_8bit` (R43); a port the operation does not drive holds 0, and nothing reads it then. -/
structure AluPorts where
  y     : Byte
  flOut : FlagWord
  fault : Option FaultCause
deriving DecidableEq, Repr

/-- `alu_8bit` as ports (R43). -/
def aluPorts (cfg : Config) (op : AluOp) (a b : Byte) : AluPorts :=
  match alu cfg op a b with
  | .ok (.value y)  => { y := y, flOut := 0, fault := none }
  | .ok (.flags fl) => { y := 0, flOut := fl, fault := none }
  | .error c        => { y := 0, flOut := 0, fault := some c }

/-- The two enables of `stack_pointer_ctrl`'s outputs, by class: PUSH and CALL take `sp_dec`, POP and RET `sp_inc` (R44). -/
inductive SpSel where
  | hold | dec | inc
deriving DecidableEq, Repr

/-- Which output of `stack_pointer_ctrl` a class writes to x[7] (R44). -/
def spSelOf : Option OpClass → SpSel
  | some .push | some .call => .dec
  | some .pop  | some .ret  => .inc
  | _ => .hold

/-- The general write of a class: the data it writes to the register that byte 1 names, or none (R23). -/
def regWriteOf (imm aluY memData : Byte) : Option OpClass → Option Byte
  | some .ldi => some imm
  | some .add | some .mul => some aluY
  | some .pop => some memData
  | _ => none

/-- The write of a class on the memory port: the byte stored at the new SP, or none (R46). -/
def memWriteOf (regData link : Byte) : Option OpClass → Option Byte
  | some .push => some regData
  | some .call => some link
  | _ => none

/-- The register a first operand byte names; an instruction without operands reads none, and index 0 stands idle on the port. -/
def firstReg (cfg : Config) (d : Dispatched) (b : Byte) (s : State) : Except FaultCause RegIndex :=
  match d.operands with
  | [] => .ok 0
  | _  => regOperand cfg 1 b s

/-- The register a second operand byte names; an immediate is only fetched, and index 0 stands idle on the port. -/
def secondReg (cfg : Config) (d : Dispatched) (b : Byte) (s : State) : Except FaultCause RegIndex :=
  match d.operands with
  | [_, .reg] => regOperand cfg 2 b s
  | [_, .imm] => do
    let _ ← immOperand cfg 2 b s
    return 0
  | _ => .ok 0

/-- The answer of the ALU, when the dispatch block drives it (R43, R45). -/
def aluStage (cfg : Config) (d : Dispatched) (a b : Byte) : Except FaultCause AluPorts :=
  match d.aluOp with
  | none => .ok { y := 0, flOut := 0, fault := none }
  | some op =>
    let p := aluPorts cfg op a b
    match p.fault with
    | none   => .ok p
    | some c => .error c

/-- The return address, which CALL alone computes (R152). -/
def linkStage (cfg : Config) (d : Dispatched) (s : State) : Except FaultCause Byte :=
  match d.cls with
  | some .call => s.pcPlus cfg 2
  | _ => .ok 0

/-- The new SP, when the class writes it: `sp_dec` from the register file's SP, `sp_inc` from the SP the general write left (R40, R44). -/
def spStage (cfg : Config) (sel : SpSel) (sp spAfterWrite : Byte) : Except FaultCause Byte :=
  match sel with
  | .hold => .ok sp
  | .dec  => spDec cfg sp
  | .inc  => spInc cfg spAfterWrite

/-- `fetch_decode_execute_loop`: one pass through the blocks, committing every write at the end, or none (R46). -/
def datapathBody (cfg : Config) (s : State) : Except FaultCause State := do
  let d := dispatch (s.readByte s.pc) s.flagE
  let ra ← firstReg cfg d (s.fetchByte cfg 1) s
  let rb ← secondReg cfg d (s.fetchByte cfg 2) s
  let rf := regFileOut s.x ra rb
  let a ← aluStage cfg d rf.raData rf.rbData
  let link ← linkStage cfg d s
  let memData := s.readByte rf.sp
  let w := regWriteOf (s.fetchByte cfg 2) a.y memData d.cls
  let sel := spSelOf d.cls
  let spAfterWrite := if ra = spIndex then w.getD rf.sp else rf.sp
  let sp ← spStage cfg sel rf.sp spAfterWrite
  let raAfterDec := if sel = .dec ∧ ra = spIndex then sp else rf.raData
  let pc ← pcNext cfg d.pcSel d.len raAfterDec memData s.pc
  return {
    mem    := match memWriteOf raAfterDec link d.cls with
              | some v => s.mem.write sp v
              | none   => s.mem
    x      := regFileNext s.x { raIdx := ra, rbIdx := rb, wEn := w.isSome, wIdx := ra, wData := w.getD 0,
                                spWEn := decide (sel ≠ .hold), spWData := sp }
    pc     := pc
    fl     := flagsNext s.fl (decide (d.aluOp = some .cmp)) a.flOut
    status := if d.cls = some .hlt then .halted else s.status
    out    := if d.cls = some .prn then s.out ++ [rf.raData] else s.out }

/-- One step of the wired blocks (R46, R103, R107). -/
def datapathStep (cfg : Config) (s : State) : Host.Outcome State Fault Refusal :=
  match s.status with
  | .running   => perform (s.readByte s.pc) (datapathBody cfg) s
  | .halted    => .next s
  | .faulted _ => .next s

end Sys2Proof.Machine
end

