-- ==== Sys2Proof/Machine/HostOps.lean ====
section
/-! DEFINITION. The host operations `load` and `run` (40_execution_loop.md R101, R102; 60_exceptions.md R207, R215); `step` is
Machine/Step.lean's. -/
namespace Sys2Proof.Machine

/-- A value the loader may place in a memory cell (R36). -/
def isImageByte (v : Int) : Bool := decide (0 ≤ v ∧ v ≤ 255)

/-- `load(image)`: the reset state with the image from address 0 upward, or a refusal (R36, R101, R207). The length is looked at
before the values, and the first value out of range is the one named (log entry 7). -/
def load (image : List Int) : Host.Outcome State Fault Refusal :=
  if 256 < image.length then .refused (.imageTooLong image.length)
  else
    match image.find? (fun v => !isImageByte v) with
    | some v => .refused (.imageByteOutOfRange v)
    | none   => .next (State.reset.writeBytes 0 (image.map (BitVec.ofInt 8)))

/-- `step` repeated while status is Running, at most `fuel` times (R102: the fuel is the executor's, no part of the machine). -/
def runWith (stepOnce : State → Host.Outcome State Fault Refusal) : Nat → State → Host.Outcome State Fault Refusal
  | 0, s => .next s
  | fuel + 1, s =>
    match s.status with
    | .running =>
      match stepOnce s with
      | .next t    => runWith stepOnce fuel t
      | .fault r   => .fault r
      | .refused r => .refused r
    | _ => .next s

/-- `run()` for at most `fuel` steps (R102). -/
def run (fuel : Nat) (s : State) : Host.Outcome State Fault Refusal := runWith step fuel s

/-- `run()` under the policies `cfg`, for at most `fuel` steps. -/
def runUnder (cfg : Config) (fuel : Nat) (s : State) : Host.Outcome State Fault Refusal := runWith (stepUnder cfg) fuel s

end Sys2Proof.Machine
end

