-- ==== Sys2Proof/Safety.lean ====
section
/-! DEFINITION. What counts as a safe run, and the vocabulary the statements are written in: the invariant, how a run ends
(40_execution_loop.md R108), and the raises of an instruction as an ordered list of checks (60_exceptions.md R210). -/
namespace Sys2Proof.Machine

/-! ## Outcomes and ends of a run -/

/-- The next state of an outcome, if it is one. -/
def nextState? : Host.Outcome State Fault Refusal → Option State
  | .next s    => some s
  | .fault _   => none
  | .refused _ => none

/-- A run that reached `s` ended normally (R108). -/
def State.EndedNormally (s : State) : Prop := s.status = .halted

/-- A run that reached `s` ended in error (R108). -/
def State.EndedInError (s : State) : Prop := ∃ info, s.status = .faulted info

/-- A safe state: no fault has been raised. -/
def State.Safe (s : State) : Prop := ¬ s.EndedInError

/-- The run from `s` is infinite: it ends neither normally nor in error (R102, R108). -/
def State.RunsForever (s : State) : Prop := ∀ n, ∃ t, run n s = .next t ∧ t.status = .running

/-! ## The invariant -/

/-- A legal flag word: the reset value, or exactly one of E, G and L (R30, R31). -/
def FlLegal (f : FlagWord) : Prop := f = 0b000 ∨ f = 0b001 ∨ f = 0b010 ∨ f = 0b100

/-- The classes that have a register operand: the "raised by" column of IllegalRegisterIndex (R201). -/
def regOperandClasses : List OpClass := [.ldi, .prn, .add, .mul, .cmp, .push, .pop, .call, .jmp, .jeq, .jne]

/-- What a terminal status says of the rest of the state, under the decided policies: Halted is at a HLT byte (R106); Faulted is
at the faulting instruction's opcode byte, which the record names, and the one fault a program can reach is
IllegalRegisterIndex (R201, R209). -/
def State.StatusLegal (s : State) : Prop :=
  match s.status with
  | .running      => True
  | .halted       => s.readByte s.pc = opcode .hlt
  | .faulted info =>
    info.pc = s.pc ∧ info.opcode = s.readByte s.pc ∧ (∃ c ∈ regOperandClasses, info.opcode = opcode c) ∧
      ∃ b : Byte, info.cause = .illegalRegisterIndex b ∧ 7 < b.toNat

/-- The invariant of the machine: memory in canonical form, a legal flag word, and a status that agrees with the rest. -/
def State.Inv (s : State) : Prop := s.mem.wf ∧ FlLegal s.fl ∧ s.StatusLegal

/-! ## Registers by operand byte -/

/-- The register an operand byte names; for a byte above 7, which no instruction gets to read through, 0. -/
def regAt (x : Vector Byte 8) (b : Byte) : Byte := if h : b.toNat < 8 then x[b.toNat] else 0

/-- The registers with the one an operand byte names set to `v`; unchanged for a byte above 7. -/
def setAt (x : Vector Byte 8) (b v : Byte) : Vector Byte 8 := if h : b.toNat < 8 then x.set b.toNat v else x

/-- The register operand bytes of an instruction, in byte order (R71, R75). -/
def regBytes : Instr → List Byte
  | .ldi r _ => [r]
  | .prn r | .push r | .pop r | .call r | .jmp r | .jeq r | .jne r => [r]
  | .mul ra rb | .add ra rb | .cmp ra rb => [ra, rb]
  | .hlt | .ret => []

/-! ## Raises as checks -/

/-- One thing that can raise in an instruction: a computed address, a register operand byte, an arithmetic result (R201). -/
inductive Check where
  | addr (e : Int)
  | reg (b : Byte)
  | value (e : Int)
deriving DecidableEq, Repr

/-- What a check raises under the policies `cfg`, if it does (R202, R203, R204). -/
def Check.raises (cfg : Config) : Check → Option FaultCause
  | .addr e  => if cfg.addrPolicy = .fault ∧ ¬ (0 ≤ e ∧ e ≤ 255) then some (.addressOutOfRange e) else none
  | .reg b   => if 7 < b.toNat then some (.illegalRegisterIndex b) else none
  | .value e => if cfg.overflowPolicy = .fault ∧ ¬ (0 ≤ e ∧ e ≤ 255) then some (.arithmeticOverflow e) else none

/-- The first check of a list that raises (R210). -/
def firstRaise (cfg : Config) (checks : List Check) : Option FaultCause := checks.findSome? (Check.raises cfg)

/-- The outcome of an instruction at `s`: the first of its checks that raises is taken as a fault, else it goes to `t` (R13, R210). -/
def outcomeOf (cfg : Config) (opc : Byte) (checks : List Check) (s t : State) : Host.Outcome State Fault Refusal :=
  match firstRaise cfg checks with
  | some c => .next (takeFault c opc s)
  | none   => .next t

/-- The byte a computed address becomes where it does not raise (R12). -/
def addrOf (cfg : Config) (e : Int) : Byte :=
  match cfg.addrPolicy with
  | .clamp => BitVec.ofInt 8 (min (max e 0) 255)
  | _      => BitVec.ofInt 8 e

end Sys2Proof.Machine
end

