-- ==== Sys2Proof/Certificates/Slice0/Obligations.lean ====
section
/-! DEFINITION. The statements for the provers. Each docstring names the rule of spec/ it formalises. `exec` and `step` are the machine under
the policies the spec decides (both Wrap: R8, decisions D2 and D3); `execUnder cfg` and `stepUnder cfg` are the machine under any
policies. A computed address written `s.pc + 3` or `s.sp - 1` is addition or subtraction of bytes, mod 256. -/

open Sys2Proof Sys2Proof.Machine

/-! ## Reset and load -/

/-- The reset values (R25, R28; the value of FL is R31's and the rest of the table is R230's). -/
def Obligations.ResetStateHoldsTheResetTable : Prop :=
  (∀ i : RegIndex, State.reset.reg i = 0) ∧ State.reset.sp = 0 ∧ State.reset.pc = 0 ∧ State.reset.fl = 0b000 ∧
    State.reset.status = .running ∧ State.reset.out = [] ∧ ∀ a : Byte, State.reset.readByte a = 0

/-- `load`: an admitted image stands from address 0 in the reset state, every other cell 0; an image that is too long, or that holds a
value outside 0..255, is refused (R36, R101, R207). Which refusal an image that is both gets is the model's choice (log entry 7),
so of that image only that it is refused is stated. -/
def Obligations.LoadEstablishesTheResetStateWithTheImage : Prop :=
  ∀ image : List Int,
    (image.length ≤ 256 → (∀ v ∈ image, 0 ≤ v ∧ v ≤ 255) →
      ∃ t : State, load image = .next t ∧ t.status = .running ∧ t.pc = 0 ∧ t.fl = 0b000 ∧ (∀ i : RegIndex, t.reg i = 0) ∧
        t.out = [] ∧ t.mem.wf ∧ ∀ a : Byte, ((t.readByte a).toNat : Int) = image.getD a.toNat 0) ∧
    (256 < image.length → (∀ v ∈ image, 0 ≤ v ∧ v ≤ 255) → load image = .refused (.imageTooLong image.length)) ∧
    (image.length ≤ 256 → (∃ v ∈ image, ¬ (0 ≤ v ∧ v ≤ 255)) →
      ∃ v ∈ image, ¬ (0 ≤ v ∧ v ≤ 255) ∧ load image = .refused (.imageByteOutOfRange v)) ∧
    (256 < image.length → (∃ v ∈ image, ¬ (0 ≤ v ∧ v ≤ 255)) → ∃ r, load image = .refused r)

/-! ## Encoding -/

/-- Decoding what the encoder writes gives the instruction back, whatever bytes follow, for every instruction with every operand byte
(R70, R71, R73, R75). -/
def Obligations.DecodeOfEncodeIsTheInstruction : Prop :=
  ∀ (i : Instr) (rest : List Byte), decode (encode i ++ rest) = .ok (i, rest)

/-- What decodes is what the encoder writes: no second word stands for an instruction (R70, R71, R76). -/
def Obligations.DecodedBytesAreTheEncoding : Prop :=
  ∀ (bytes rest : List Byte) (i : Instr), decode bytes = .ok (i, rest) → bytes = encode i ++ rest

/-- The opcode map: a byte is unassigned exactly when it is none of the thirteen codes, which is exactly when it lies in the listed
ranges; an unassigned byte has length 1 and no operands, and the next step fetches the byte after it as an opcode (R76). -/
def Obligations.UnassignedOpcodesAreTheListedOnes : Prop :=
  (∀ opc op1 op2 : Byte, decodeWindow opc op1 op2 = none ↔
    opc.toNat ∉ [130, 71, 1, 162, 160, 69, 70, 80, 17, 167, 84, 85, 86]) ∧
  (∀ opc op1 op2 : Byte, decodeWindow opc op1 op2 = none ↔
    opc.toNat = 0 ∨ (2 ≤ opc.toNat ∧ opc.toNat ≤ 16) ∨ (18 ≤ opc.toNat ∧ opc.toNat ≤ 68) ∨ (72 ≤ opc.toNat ∧ opc.toNat ≤ 79) ∨
      (81 ≤ opc.toNat ∧ opc.toNat ≤ 83) ∨ (87 ≤ opc.toNat ∧ opc.toNat ≤ 129) ∨ (131 ≤ opc.toNat ∧ opc.toNat ≤ 159) ∨
      opc.toNat = 161 ∨ (163 ≤ opc.toNat ∧ opc.toNat ≤ 166) ∨ 168 ≤ opc.toNat) ∧
  (∀ (opc op1 op2 : Byte) (e : Bool), decodeWindow opc op1 op2 = none →
    (dispatch opc e).cls = none ∧ (dispatch opc e).len = 1 ∧ (dispatch opc e).operands = []) ∧
  ∀ s : State, s.status = .running → s.fetch decided = none → ∃ t, step s = .next t ∧ t.status = .running ∧
    t.fetch decided = decodeWindow (s.readByte (s.pc + 1)) (s.readByte (s.pc + 2)) (s.readByte (s.pc + 3))

/-- The dispatch block and the decoder agree on class, length and operand kinds, the ALU is driven for ADD, MUL and CMP alone, and the
length is the operand count and one more (R45, R70, R104). -/
def Obligations.DispatchAgreesWithTheDecoder : Prop :=
  ∀ (opc op1 op2 : Byte) (e : Bool) (i : Instr), decodeWindow opc op1 op2 = some i →
    (dispatch opc e).cls = some i.opClass ∧ (dispatch opc e).len = (encode i).length ∧
    (dispatch opc e).operands.length + 1 = (encode i).length ∧
    ((dispatch opc e).operands.filter (· = .reg)).length = (regBytes i).length ∧
    ((dispatch opc e).aluOp ≠ none ↔ i.opClass = .add ∨ i.opClass = .mul ∨ i.opClass = .cmp)

/-- The regularity of the thirteen codes, which the spec marks as derived: bits [7:6] are the operand count, bit 5 marks the ALU
instructions, bit 4 those that set pc explicitly (R74). -/
def Obligations.CodesShowTheirOperandCountAndKind : Prop :=
  ∀ c : OpClass, (opcode c).toNat / 64 = c.format.operands.length ∧
    ((opcode c).getLsbD 5 = true ↔ c = .add ∨ c = .mul ∨ c = .cmp) ∧
    ((opcode c).getLsbD 4 = true ↔ c = .call ∨ c = .ret ∨ c = .jmp ∨ c = .jeq ∨ c = .jne)

/-- Words written out from the encoding table decode to the instructions they stand for (R71, R73, R81). -/
def Obligations.WordsOfTheTableDecode : Prop :=
  decode [0b10000010, 0b00000000, 0b00000101] = .ok (.ldi 0 5, []) ∧
  decode [0b01000111, 0b00000000] = .ok (.prn 0, []) ∧
  decode [0b10100000, 0b00000000, 0b00000001] = .ok (.add 0 1, []) ∧
  decode [0b01010000, 0b00000001] = .ok (.call 1, []) ∧
  decode [0b00010001] = .ok (.ret, []) ∧
  decode [0b01010110, 0b00000011] = .ok (.jne 3, []) ∧
  decode [0b11000000] = .error (.unassigned 192)

/-! ## The loop -/

/-- A step of a running machine runs the instruction decoded from the bytes at pc, pc + 1 and pc + 2 (R15, R26, R103). -/
def Obligations.StepRunsTheDecodedInstruction : Prop :=
  ∀ (s : State) (i : Instr), s.status = .running →
    decodeWindow (s.readByte s.pc) (s.readByte (s.pc + 1)) (s.readByte (s.pc + 2)) = some i → step s = exec i s

/-- An unassigned opcode advances pc by 1 and does nothing else; under Fault it raises AddressOutOfRange at 255 alone, under Clamp it
stays at 255; and a machine whose memory holds no assigned opcode runs for ever, one cell a step (R105). -/
def Obligations.UnassignedOpcodeIsSkipped : Prop :=
  (∀ s : State, s.status = .running → classOf (s.readByte s.pc) = none →
    step s = .next { s with pc := s.pc + 1 } ∧
    ∀ cfg : Config, stepUnder cfg s =
      outcomeOf cfg (s.readByte s.pc) [.addr (s.pc.toNat + 1)] s { s with pc := addrOf cfg (s.pc.toNat + 1) }) ∧
  (∀ (s : State) (ov : OverflowPolicy), s.status = .running → classOf (s.readByte s.pc) = none → s.pc = 255 →
    stepUnder { addrPolicy := .clamp, overflowPolicy := ov } s = .next s) ∧
  ∀ (s : State) (n : Nat), s.status = .running → (∀ a : Byte, classOf (s.readByte a) = none) →
    run n s = .next { s with pc := s.pc + BitVec.ofNat 8 n }

/-- From Halted and from Faulted no step changes anything, under any policies (R107). -/
def Obligations.TerminalStatesTakeNoStep : Prop :=
  ∀ (s : State) (cfg : Config) (n : Nat), (s.status = .halted ∨ ∃ info, s.status = .faulted info) →
    step s = .next s ∧ stepUnder cfg s = .next s ∧ run n s = .next s

/-- The loop as a state machine: from Running a step always answers a next state; it is Halted exactly when HLT ran, Faulted exactly
when the instruction at pc names a register above 7, and Running otherwise; the terminal states have no way out (R100). -/
def Obligations.LoopStateTransitions : Prop :=
  (∀ s : State, s.status = .running → ∃ t, step s = .next t ∧
    (t.status = .halted ↔ s.fetch decided = some .hlt) ∧
    ((∃ info, t.status = .faulted info) ↔ ∃ i, s.fetch decided = some i ∧ i.wf = false) ∧
    (t.status = .running ↔ s.fetch decided ≠ some .hlt ∧ ∀ i, s.fetch decided = some i → i.wf = true)) ∧
  ∀ s : State, s.status ≠ .running → step s = .next s

/-- A run either goes on for ever or has, after some number of steps, ended normally or in error, and then nothing changes any more
(R102, R108). -/
def Obligations.EveryRunEndsOrIsInfinite : Prop :=
  ∀ s : State, s.RunsForever ∨
    ∃ n t, run n s = .next t ∧ (t.EndedNormally ∨ t.EndedInError) ∧ ∀ m, run (n + m) s = .next t

/-- The host's own `k` steps give what `run` with that fuel gives: a host step of a stopped machine changes nothing (R102, R107). -/
def Obligations.HostStepsAgreeWithRun : Prop :=
  ∀ (n : Nat) (s : State), Sys2Proof.core.run n s = run n s

/-! ## Invariant -/

/-- Every step keeps the invariant: memory in canonical form, a flag word with at most one bit set, and a terminal status that agrees
with the byte at pc (R30, R106, R201, R209). -/
def Obligations.StepKeepsTheInvariant : Prop :=
  ∀ s t : State, s.Inv → step s = .next t → t.Inv

/-- The invariant holds at reset and after every load (R230). -/
def Obligations.ResetAndLoadMeetTheInvariant : Prop :=
  State.reset.Inv ∧ ∀ (image : List Int) (t : State), load image = .next t → t.Inv

/-! ## Faults and policies -/

/-- The normalisers A, V and reg under each policy, as integers (R12). -/
def Obligations.NormalisersFollowTheirPolicies : Prop :=
  (∀ (ov : OverflowPolicy) (e : Int), ∃ a, normAddr { addrPolicy := .wrap, overflowPolicy := ov } e = .ok a ∧ (a.toNat : Int) = e % 256) ∧
  (∀ (ov : OverflowPolicy) (e : Int), ∃ a, normAddr { addrPolicy := .clamp, overflowPolicy := ov } e = .ok a ∧
    (a.toNat : Int) = min (max e 0) 255) ∧
  (∀ (ov : OverflowPolicy) (e : Int),
    (0 ≤ e ∧ e ≤ 255 → ∃ a, normAddr { addrPolicy := .fault, overflowPolicy := ov } e = .ok a ∧ (a.toNat : Int) = e) ∧
    (¬ (0 ≤ e ∧ e ≤ 255) → normAddr { addrPolicy := .fault, overflowPolicy := ov } e = .error (.addressOutOfRange e))) ∧
  (∀ (ap : AddrPolicy) (e : Int), ∃ v, normValue { addrPolicy := ap, overflowPolicy := .wrap } e = .ok v ∧ (v.toNat : Int) = e % 256) ∧
  (∀ (ap : AddrPolicy) (e : Int),
    (0 ≤ e ∧ e ≤ 255 → ∃ v, normValue { addrPolicy := ap, overflowPolicy := .fault } e = .ok v ∧ (v.toNat : Int) = e) ∧
    (¬ (0 ≤ e ∧ e ≤ 255) → normValue { addrPolicy := ap, overflowPolicy := .fault } e = .error (.arithmeticOverflow e))) ∧
  (∀ b : Byte, (b.toNat ≤ 7 → ∃ i, regIndex b = .ok i ∧ i.val = b.toNat) ∧
    (7 < b.toNat → regIndex b = .error (.illegalRegisterIndex b))) ∧
  decided = { addrPolicy := .wrap, overflowPolicy := .wrap }

/-- A fault is precise and terminal under any policies: the state is the one before the instruction but for its status, the record names
the faulting instruction's pc and opcode byte, and no further step changes anything (R13, R200, R209). -/
def Obligations.FaultsArePreciseAndTerminal : Prop :=
  ∀ (cfg : Config) (s t : State) (info : FaultInfo), s.status = .running → stepUnder cfg s = .next t → t.status = .faulted info →
    t = { s with status := .faulted info } ∧ info.pc = s.pc ∧ info.opcode = s.readByte s.pc ∧ stepUnder cfg t = .next t

/-- Which faults a step can raise, of which instructions, and under which policy, with their codes and details: the table of R201 (and
R203 to R206: no program reaches UnsupportedOperation, code 1, or DivideByZero, code 4). -/
def Obligations.FaultsAreThoseOfTheTable : Prop :=
  ∀ (cfg : Config) (s t : State) (info : FaultInfo), s.status = .running → stepUnder cfg s = .next t → t.status = .faulted info →
    match info.cause with
    | .unsupportedOperation _ => False
    | .illegalRegisterIndex b =>
      info.cause.code = 2 ∧ info.cause.detail = b.toNat ∧ 7 < b.toNat ∧ (∃ i, s.fetch cfg = some i ∧ b ∈ regBytes i)
    | .arithmeticOverflow e =>
      info.cause.code = 3 ∧ info.cause.detail = e ∧ 255 < e ∧ cfg.overflowPolicy = .fault ∧
        (info.opcode = opcode .add ∨ info.opcode = opcode .mul)
    | .divideByZero _ => False
    | .addressOutOfRange e =>
      info.cause.code = 5 ∧ info.cause.detail = e ∧ (e < 0 ∨ 255 < e) ∧ cfg.addrPolicy = .fault ∧ info.opcode ≠ opcode .hlt

/-- A register operand byte above 7 raises IllegalRegisterIndex, code 2, before any write, whether or not a branch would be taken; of two
such bytes the first is named (R202, R210 for the order). -/
def Obligations.RegisterByteAboveSevenRaises : Prop :=
  ∀ (i : Instr) (s : State) (b : Byte), (regBytes i).find? (fun b => 7 < b.toNat) = some b →
    exec i s = .next { s with status := .faulted { cause := .illegalRegisterIndex b, pc := s.pc, opcode := opcodeOf i } } ∧
      (FaultCause.illegalRegisterIndex b).code = 2

/-- What the most cautious policies let through, every policy does: a run that ends without a fault under Fault for addresses and for
overflow is the run under any policies, `decided` among them (D2, D3; U1 and U2 of 93_implementation_defined.md). -/
def Obligations.RunUnderFaultPoliciesIsTheRunUnderAny : Prop :=
  ∀ (cfg : Config) (n : Nat) (s t : State), runUnder { addrPolicy := .fault, overflowPolicy := .fault } n s = .next t → t.Safe →
    runUnder cfg n s = .next t

/-! ## ALU -/

/-- Arithmetic laws of ADD and MUL: the exact result mod 256 under Wrap, itself or ArithmeticOverflow under Fault; both commute; the
instructions leave FL unchanged (R131). -/
def Obligations.AddAndMulLaws : Prop :=
  (∀ (ap : AddrPolicy) (a b : Byte), ∃ y z,
    alu { addrPolicy := ap, overflowPolicy := .wrap } .add a b = .ok (.value y) ∧ y.toNat = (a.toNat + b.toNat) % 256 ∧
    alu { addrPolicy := ap, overflowPolicy := .wrap } .mul a b = .ok (.value z) ∧ z.toNat = (a.toNat * b.toNat) % 256) ∧
  (∀ (ap : AddrPolicy) (a b : Byte),
    (a.toNat + b.toNat ≤ 255 → ∃ y, alu { addrPolicy := ap, overflowPolicy := .fault } .add a b = .ok (.value y) ∧
      y.toNat = a.toNat + b.toNat) ∧
    (255 < a.toNat + b.toNat → alu { addrPolicy := ap, overflowPolicy := .fault } .add a b =
      .error (.arithmeticOverflow (a.toNat + b.toNat))) ∧
    (a.toNat * b.toNat ≤ 255 → ∃ y, alu { addrPolicy := ap, overflowPolicy := .fault } .mul a b = .ok (.value y) ∧
      y.toNat = a.toNat * b.toNat) ∧
    (255 < a.toNat * b.toNat → alu { addrPolicy := ap, overflowPolicy := .fault } .mul a b =
      .error (.arithmeticOverflow (a.toNat * b.toNat)))) ∧
  (∀ (cfg : Config) (a b : Byte), alu cfg .add a b = alu cfg .add b a ∧ alu cfg .mul a b = alu cfg .mul b a) ∧
  ∀ (cfg : Config) (ra rb : Byte) (s t : State),
    (execUnder cfg (.add ra rb) s = .next t → t.fl = s.fl) ∧ (execUnder cfg (.mul ra rb) s = .next t → t.fl = s.fl)

/-- The comparison law: exactly one of L, G and E, as unsigned integers; that the compare is unsigned the spec marks as derived (R132). -/
def Obligations.CompareSetsExactlyOneFlag : Prop :=
  ∀ (cfg : Config) (a b : Byte), ∃ fl, alu cfg .cmp a b = .ok (.flags fl) ∧
    (fl = 0b100 ↔ a.toNat < b.toNat) ∧ (fl = 0b010 ↔ b.toNat < a.toNat) ∧ (fl = 0b001 ↔ a = b) ∧
    (fl = 0b100 ∨ fl = 0b010 ∨ fl = 0b001)

/-- The operations no opcode reaches: SUB is the difference under the overflow policy, DIV raises on 0 and answers some byte otherwise
(which one is open: `Config.divFn`), any other operation raises UnsupportedOperation; the dispatch block never selects them (R133, R134,
R205, R206). -/
def Obligations.DormantAluOperations : Prop :=
  (∀ (ap : AddrPolicy) (a b : Byte), ∃ y, alu { addrPolicy := ap, overflowPolicy := .wrap } .sub a b = .ok (.value y) ∧
    (y.toNat : Int) = ((a.toNat : Int) - b.toNat) % 256) ∧
  (∀ (ap : AddrPolicy) (a b : Byte), a.toNat < b.toNat → alu { addrPolicy := ap, overflowPolicy := .fault } .sub a b =
    .error (.arithmeticOverflow ((a.toNat : Int) - b.toNat))) ∧
  (∀ (ap : AddrPolicy) (a b : Byte), b.toNat ≤ a.toNat → ∃ y, alu { addrPolicy := ap, overflowPolicy := .fault } .sub a b = .ok (.value y) ∧
    y.toNat = a.toNat - b.toNat) ∧
  (∀ (cfg : Config) (a : Byte), alu cfg .div a 0 = .error (.divideByZero a)) ∧
  (∀ (cfg : Config) (a b : Byte), b ≠ 0 → ∃ y, alu cfg .div a b = .ok (.value y)) ∧
  (∀ (cfg : Config) (n : Nat) (a b : Byte), alu cfg (.other n) a b = .error (.unsupportedOperation n)) ∧
  ∀ (opc : Byte) (e : Bool) (op : AluOp), (dispatch opc e).aluOp = some op → op = .add ∨ op = .mul ∨ op = .cmp

/-! ## The instructions

For each instruction: what it does under the decided policies, with every register byte; and under any policies, its raises in the order
of its pseudocode and the state it goes to when none of them raises. -/

/-- LDI (R120). In the clause over any policies, that byte 1's register is checked before the address pc + 2 is
the model's reading of the raise order (log entry 4, DEDUCED); it shows under ADDR_POLICY = Fault alone. -/
def Obligations.LdiLoadsTheImmediate : Prop :=
  ∀ (r imm : Byte) (s : State),
    (r.toNat < 8 → exec (.ldi r imm) s = .next { s with x := setAt s.x r imm, pc := s.pc + 3 }) ∧
    (7 < r.toNat → exec (.ldi r imm) s = .next (takeFault (.illegalRegisterIndex r) 130 s)) ∧
    ∀ cfg : Config, execUnder cfg (.ldi r imm) s =
      outcomeOf cfg 130 [.addr (s.pc.toNat + 1), .reg r, .addr (s.pc.toNat + 2), .addr (s.pc.toNat + 3)] s
        { s with x := setAt s.x r imm, pc := addrOf cfg (s.pc.toNat + 3) }

/-- PRN (R121). -/
def Obligations.PrnEmitsTheRegister : Prop :=
  ∀ (r : Byte) (s : State),
    (r.toNat < 8 → exec (.prn r) s = .next { s with out := s.out ++ [regAt s.x r], pc := s.pc + 2 }) ∧
    (7 < r.toNat → exec (.prn r) s = .next (takeFault (.illegalRegisterIndex r) 71 s)) ∧
    ∀ cfg : Config, execUnder cfg (.prn r) s =
      outcomeOf cfg 71 [.addr (s.pc.toNat + 1), .reg r, .addr (s.pc.toNat + 2)] s
        { s with out := s.out ++ [regAt s.x r], pc := addrOf cfg (s.pc.toNat + 2) }

/-- HLT: only the status changes, under any policies (R106). -/
def Obligations.HltHaltsInPlace : Prop :=
  ∀ s : State, exec .hlt s = .next { s with status := .halted } ∧
    ∀ cfg : Config, execUnder cfg .hlt s = .next { s with status := .halted }

/-- ADD (R135). In the clause over any policies, that byte 1's register is checked before the address pc + 2 is
the model's reading of the raise order (log entry 4, DEDUCED); it shows under ADDR_POLICY = Fault alone. -/
def Obligations.AddAddsIntoTheFirstRegister : Prop :=
  ∀ (ra rb : Byte) (s : State),
    (ra.toNat < 8 → rb.toNat < 8 →
      exec (.add ra rb) s = .next { s with x := setAt s.x ra (regAt s.x ra + regAt s.x rb), pc := s.pc + 3 }) ∧
    (7 < ra.toNat → exec (.add ra rb) s = .next (takeFault (.illegalRegisterIndex ra) 160 s)) ∧
    (ra.toNat < 8 → 7 < rb.toNat → exec (.add ra rb) s = .next (takeFault (.illegalRegisterIndex rb) 160 s)) ∧
    ∀ cfg : Config, execUnder cfg (.add ra rb) s =
      outcomeOf cfg 160 [.addr (s.pc.toNat + 1), .reg ra, .addr (s.pc.toNat + 2), .reg rb,
          .value ((regAt s.x ra).toNat + (regAt s.x rb).toNat), .addr (s.pc.toNat + 3)] s
        { s with x := setAt s.x ra (regAt s.x ra + regAt s.x rb), pc := addrOf cfg (s.pc.toNat + 3) }

/-- MUL (R136). In the clause over any policies, that byte 1's register is checked before the address pc + 2 is
the model's reading of the raise order (log entry 4, DEDUCED); it shows under ADDR_POLICY = Fault alone. -/
def Obligations.MulMultipliesIntoTheFirstRegister : Prop :=
  ∀ (ra rb : Byte) (s : State),
    (ra.toNat < 8 → rb.toNat < 8 →
      exec (.mul ra rb) s = .next { s with x := setAt s.x ra (regAt s.x ra * regAt s.x rb), pc := s.pc + 3 }) ∧
    (7 < ra.toNat → exec (.mul ra rb) s = .next (takeFault (.illegalRegisterIndex ra) 162 s)) ∧
    (ra.toNat < 8 → 7 < rb.toNat → exec (.mul ra rb) s = .next (takeFault (.illegalRegisterIndex rb) 162 s)) ∧
    ∀ cfg : Config, execUnder cfg (.mul ra rb) s =
      outcomeOf cfg 162 [.addr (s.pc.toNat + 1), .reg ra, .addr (s.pc.toNat + 2), .reg rb,
          .value ((regAt s.x ra).toNat * (regAt s.x rb).toNat), .addr (s.pc.toNat + 3)] s
        { s with x := setAt s.x ra (regAt s.x ra * regAt s.x rb), pc := addrOf cfg (s.pc.toNat + 3) }

/-- CMP: the whole flags register is replaced, and nothing else but pc (R137). In the clause over any policies, that byte 1's register is checked before the address pc + 2 is
the model's reading of the raise order (log entry 4, DEDUCED); it shows under ADDR_POLICY = Fault alone. -/
def Obligations.CmpReplacesTheFlags : Prop :=
  ∀ (ra rb : Byte) (s : State),
    (ra.toNat < 8 → rb.toNat < 8 → exec (.cmp ra rb) s = .next { s with
      fl := if (regAt s.x ra).toNat < (regAt s.x rb).toNat then 0b100
            else if (regAt s.x rb).toNat < (regAt s.x ra).toNat then 0b010 else 0b001,
      pc := s.pc + 3 }) ∧
    (7 < ra.toNat → exec (.cmp ra rb) s = .next (takeFault (.illegalRegisterIndex ra) 167 s)) ∧
    (ra.toNat < 8 → 7 < rb.toNat → exec (.cmp ra rb) s = .next (takeFault (.illegalRegisterIndex rb) 167 s)) ∧
    ∀ cfg : Config, execUnder cfg (.cmp ra rb) s =
      outcomeOf cfg 167 [.addr (s.pc.toNat + 1), .reg ra, .addr (s.pc.toNat + 2), .reg rb, .addr (s.pc.toNat + 3)] s
        { s with
          fl := if (regAt s.x ra).toNat < (regAt s.x rb).toNat then 0b100
                else if (regAt s.x rb).toNat < (regAt s.x ra).toNat then 0b010 else 0b001,
          pc := addrOf cfg (s.pc.toNat + 3) }

/-- PUSH: SP is decremented first, and PUSH R7 stores the decremented SP (R150; the order is the spec's decision D10). -/
def Obligations.PushStoresBelowTheStackPointer : Prop :=
  ∀ (r : Byte) (s : State),
    (r.toNat < 8 → exec (.push r) s = .next { s with
      x := setAt s.x 7 (s.sp - 1), mem := s.mem.write (s.sp - 1) (if r = 7 then s.sp - 1 else regAt s.x r), pc := s.pc + 2 }) ∧
    (7 < r.toNat → exec (.push r) s = .next (takeFault (.illegalRegisterIndex r) 69 s)) ∧
    ∀ cfg : Config, execUnder cfg (.push r) s =
      outcomeOf cfg 69 [.addr (s.pc.toNat + 1), .reg r, .addr (s.sp.toNat - 1), .addr (s.pc.toNat + 2)] s
        { s with
          x := setAt s.x 7 (addrOf cfg (s.sp.toNat - 1)),
          mem := s.mem.write (addrOf cfg (s.sp.toNat - 1)) (if r = 7 then addrOf cfg (s.sp.toNat - 1) else regAt s.x r),
          pc := addrOf cfg (s.pc.toNat + 2) }

/-- POP: the register first, then SP, so POP R7 leaves SP one above the byte popped (R151; D10). -/
def Obligations.PopLoadsFromTheStackPointer : Prop :=
  ∀ (r : Byte) (s : State),
    (r.toNat < 8 → r ≠ 7 → exec (.pop r) s = .next { s with
      x := setAt (setAt s.x r (s.readByte s.sp)) 7 (s.sp + 1), pc := s.pc + 2 }) ∧
    (r = 7 → exec (.pop r) s = .next { s with x := setAt s.x 7 (s.readByte s.sp + 1), pc := s.pc + 2 }) ∧
    (7 < r.toNat → exec (.pop r) s = .next (takeFault (.illegalRegisterIndex r) 70 s)) ∧
    ∀ cfg : Config, execUnder cfg (.pop r) s =
      let after : Int := if r = 7 then (s.readByte s.sp).toNat + 1 else s.sp.toNat + 1
      outcomeOf cfg 70 [.addr (s.pc.toNat + 1), .reg r, .addr after, .addr (s.pc.toNat + 2)] s
        { s with
          x := setAt (setAt s.x r (s.readByte s.sp)) 7 (addrOf cfg after),
          pc := addrOf cfg (s.pc.toNat + 2) }

/-- CALL: the return address pc + 2 is pushed, and pc is the register's value, read after the SP write (R152; D10). -/
def Obligations.CallPushesTheReturnAddress : Prop :=
  ∀ (r : Byte) (s : State),
    (r.toNat < 8 → exec (.call r) s = .next { s with
      x := setAt s.x 7 (s.sp - 1), mem := s.mem.write (s.sp - 1) (s.pc + 2), pc := if r = 7 then s.sp - 1 else regAt s.x r }) ∧
    (7 < r.toNat → exec (.call r) s = .next (takeFault (.illegalRegisterIndex r) 80 s)) ∧
    ∀ cfg : Config, execUnder cfg (.call r) s =
      outcomeOf cfg 80 [.addr (s.pc.toNat + 1), .reg r, .addr (s.pc.toNat + 2), .addr (s.sp.toNat - 1)] s
        { s with
          x := setAt s.x 7 (addrOf cfg (s.sp.toNat - 1)),
          mem := s.mem.write (addrOf cfg (s.sp.toNat - 1)) (addrOf cfg (s.pc.toNat + 2)),
          pc := if r = 7 then addrOf cfg (s.sp.toNat - 1) else regAt s.x r }

/-- RET (R153). -/
def Obligations.RetPopsThePc : Prop :=
  ∀ s : State,
    exec .ret s = .next { s with pc := s.readByte s.sp, x := setAt s.x 7 (s.sp + 1) } ∧
    ∀ cfg : Config, execUnder cfg .ret s =
      outcomeOf cfg 17 [.addr (s.sp.toNat + 1)] s
        { s with pc := s.readByte s.sp, x := setAt s.x 7 (addrOf cfg (s.sp.toNat + 1)) }

/-- JMP (R170). -/
def Obligations.JmpGoesToTheRegister : Prop :=
  ∀ (r : Byte) (s : State),
    (r.toNat < 8 → exec (.jmp r) s = .next { s with pc := regAt s.x r }) ∧
    (7 < r.toNat → exec (.jmp r) s = .next (takeFault (.illegalRegisterIndex r) 84 s)) ∧
    ∀ cfg : Config, execUnder cfg (.jmp r) s =
      outcomeOf cfg 84 [.addr (s.pc.toNat + 1), .reg r] s { s with pc := regAt s.x r }

/-- JEQ: taken exactly when FL.E is 1 (R171). -/
def Obligations.JeqJumpsWhenEqual : Prop :=
  ∀ (r : Byte) (s : State),
    (r.toNat < 8 → s.fl.getLsbD 0 = true → exec (.jeq r) s = .next { s with pc := regAt s.x r }) ∧
    (r.toNat < 8 → s.fl.getLsbD 0 = false → exec (.jeq r) s = .next { s with pc := s.pc + 2 }) ∧
    (7 < r.toNat → exec (.jeq r) s = .next (takeFault (.illegalRegisterIndex r) 85 s)) ∧
    ∀ cfg : Config, execUnder cfg (.jeq r) s =
      if s.fl.getLsbD 0 = true then outcomeOf cfg 85 [.addr (s.pc.toNat + 1), .reg r] s { s with pc := regAt s.x r }
      else outcomeOf cfg 85 [.addr (s.pc.toNat + 1), .reg r, .addr (s.pc.toNat + 2)] s { s with pc := addrOf cfg (s.pc.toNat + 2) }

/-- JNE: taken exactly when FL.E is 0 (R172). -/
def Obligations.JneJumpsWhenNotEqual : Prop :=
  ∀ (r : Byte) (s : State),
    (r.toNat < 8 → s.fl.getLsbD 0 = false → exec (.jne r) s = .next { s with pc := regAt s.x r }) ∧
    (r.toNat < 8 → s.fl.getLsbD 0 = true → exec (.jne r) s = .next { s with pc := s.pc + 2 }) ∧
    (7 < r.toNat → exec (.jne r) s = .next (takeFault (.illegalRegisterIndex r) 86 s)) ∧
    ∀ cfg : Config, execUnder cfg (.jne r) s =
      if s.fl.getLsbD 0 = false then outcomeOf cfg 86 [.addr (s.pc.toNat + 1), .reg r] s { s with pc := regAt s.x r }
      else outcomeOf cfg 86 [.addr (s.pc.toNat + 1), .reg r, .addr (s.pc.toNat + 2)] s { s with pc := addrOf cfg (s.pc.toNat + 2) }

/-! ## Frames -/

/-- LDI, ADD and MUL change no register but the one byte 1 names, no flag, no byte of memory, no output; the status only to record a
fault (R23, R30, R34, R50). -/
def Obligations.FrameOfRegisterWriters : Prop :=
  ∀ (r b : Byte) (i : Instr) (s t : State), i = .ldi r b ∨ i = .add r b ∨ i = .mul r b → exec i s = .next t →
    (∀ j : RegIndex, j.val ≠ r.toNat → t.reg j = s.reg j) ∧ t.fl = s.fl ∧ t.out = s.out ∧
    (∀ a : Byte, t.readByte a = s.readByte a) ∧ (t.status = s.status ∨ ∃ info, t.status = .faulted info)

/-- POP changes no register but its destination and SP, RET none but SP; neither changes a flag, a byte of memory or the output (R23, R30,
R34, R50; R151: POP leaves the memory cell unchanged). -/
def Obligations.FrameOfStackReaders : Prop :=
  (∀ (r : Byte) (s t : State), exec (.pop r) s = .next t →
    (∀ j : RegIndex, j.val ≠ r.toNat → j ≠ 7 → t.reg j = s.reg j) ∧ t.fl = s.fl ∧ t.out = s.out ∧
    (∀ a : Byte, t.readByte a = s.readByte a) ∧ (t.status = s.status ∨ ∃ info, t.status = .faulted info)) ∧
  ∀ s t : State, exec .ret s = .next t →
    (∀ j : RegIndex, j ≠ 7 → t.reg j = s.reg j) ∧ t.fl = s.fl ∧ t.out = s.out ∧ t.status = s.status ∧
    ∀ a : Byte, t.readByte a = s.readByte a

/-- PUSH and CALL change no register but SP, no flag, no output, and no byte of memory but the one at the decremented SP, the address
`spDec` gives for the SP before the instruction (R23, R30, R34, R44, R50). -/
def Obligations.FrameOfStackWriters : Prop :=
  ∀ (r : Byte) (i : Instr) (s t : State), i = .push r ∨ i = .call r → exec i s = .next t →
    (∀ j : RegIndex, j ≠ 7 → t.reg j = s.reg j) ∧ t.fl = s.fl ∧ t.out = s.out ∧
    (t.status = s.status ∨ ∃ info, t.status = .faulted info) ∧
    ∀ a : Byte, spDec decided s.sp = .ok a → ∀ b : Byte, b ≠ a → t.readByte b = s.readByte b

/-- PRN, CMP, JMP, JEQ, JNE and HLT change no register and no byte of memory; of the six only CMP can change a flag, only PRN the output,
and only HLT the status to anything but a fault (R23, R30, R32, R34, R50). -/
def Obligations.FrameOfReadersOnly : Prop :=
  ∀ (r b : Byte) (i : Instr) (s t : State),
    i = .prn r ∨ i = .cmp r b ∨ i = .jmp r ∨ i = .jeq r ∨ i = .jne r ∨ i = .hlt → exec i s = .next t →
    (∀ j : RegIndex, t.reg j = s.reg j) ∧ (∀ a : Byte, t.readByte a = s.readByte a) ∧
    (i ≠ .cmp r b → t.fl = s.fl) ∧ (i ≠ .prn r → t.out = s.out) ∧
    (i ≠ .hlt → t.status = s.status ∨ ∃ info, t.status = .faulted info) ∧ (i = .hlt → t.pc = s.pc)

/-! ## Rules of the whole machine -/

/-- FL is written by CMP alone, which leaves exactly one bit set and whose result does not depend on the flags before it; and no
instruction's effect depends on FL.G or FL.L: from states that differ in those bits alone it goes to states that differ in FL alone (R30). -/
def Obligations.OnlyCmpWritesTheFlags : Prop :=
  (∀ (i : Instr) (s t : State), exec i s = .next t → (∀ ra rb, i ≠ .cmp ra rb) → t.fl = s.fl) ∧
  (∀ (ra rb : Byte) (s : State), ra.toNat < 8 → rb.toNat < 8 → ∃ t, exec (.cmp ra rb) s = .next t ∧
    (t.fl = 0b001 ∨ t.fl = 0b010 ∨ t.fl = 0b100) ∧ ∀ f, exec (.cmp ra rb) { s with fl := f } = .next t) ∧
  ∀ (i : Instr) (s t : State) (f : FlagWord), f.getLsbD 0 = s.fl.getLsbD 0 → exec i s = .next t →
    ∃ g : FlagWord, exec i { s with fl := f } = .next { t with fl := g }

/-- No program can learn FL.G or FL.L: runs from states that differ in those bits alone agree, at every number of steps, on everything but
those bits (R30: no instruction reads FL.G or FL.L). -/
def Obligations.GreaterAndLessFlagsAreNeverRead : Prop :=
  ∀ (n : Nat) (s t : State) (f : FlagWord), f.getLsbD 0 = s.fl.getLsbD 0 → run n s = .next t →
    ∃ g : FlagWord, run n { s with fl := f } = .next { t with fl := g } ∧ g.getLsbD 0 = t.fl.getLsbD 0

/-- A step leaves the output as it is, or it is a PRN and appends the register's value; so a run only ever extends the output (R34). -/
def Obligations.OnlyPrnAppendsToTheOutput : Prop :=
  State.reset.out = [] ∧
  (∀ s t : State, step s = .next t → t.out = s.out ∨
    ∃ r : Byte, r.toNat < 8 ∧ s.fetch decided = some (.prn r) ∧ t.out = s.out ++ [regAt s.x r]) ∧
  ∀ (n : Nat) (s t : State), run n s = .next t → ∃ emitted, t.out = s.out ++ emitted

/-- Nothing reads the output: a run from a state with more output before it is the same run, with that output before its own (R32, R34). -/
def Obligations.OutputIsNeverRead : Prop :=
  ∀ (n : Nat) (s t : State) (o : List Byte), run n s = .next t →
    run n { s with out := o ++ s.out } = .next { t with out := o ++ t.out }

/-- Memory is written by PUSH and CALL alone, one byte a step, at the decremented SP (R46, R50). -/
def Obligations.OnlyPushAndCallWriteMemory : Prop :=
  ∀ s t : State, step s = .next t → t.mem = s.mem ∨
    ((s.readByte s.pc = opcode .push ∨ s.readByte s.pc = opcode .call) ∧ t.sp = s.sp - 1 ∧ ∃ v, t.mem = s.mem.write (s.sp - 1) v)

/-- The four ways a step writes pc: sequentially past the instruction, to a register's value, to the byte at SP, or not at all, for HLT and
for a fault (R27, R173). -/
def Obligations.PcMovesInOneOfFourWays : Prop :=
  ∀ s t : State, s.status = .running → step s = .next t →
    ((∃ info, t.status = .faulted info) → t.pc = s.pc) ∧
    ((∀ info, t.status ≠ .faulted info) →
      match s.fetch decided with
      | none => t.pc = s.pc + 1
      | some (.jmp r) => t.pc = regAt s.x r
      | some (.jeq r) => t.pc = if s.fl.getLsbD 0 then regAt s.x r else s.pc + 2
      | some (.jne r) => t.pc = if s.fl.getLsbD 0 then s.pc + 2 else regAt s.x r
      | some (.call r) => t.pc = regAt t.x r
      | some .ret => t.pc = s.readByte s.sp
      | some .hlt => t.pc = s.pc
      | some i => t.pc = s.pc + BitVec.ofNat 8 (encode i).length)

/-- The stack laws, which the spec derives under Wrap: PUSH then POP of one register other than R7 restores it and SP and leaves the byte
behind; a RET with SP and the return cell as CALL left them goes to the byte after the CALL and restores SP; under Clamp the first law
fails at SP = 0, where SP ends at 1 (R154). -/
def Obligations.StackLaws : Prop :=
  (∀ (r : Byte) (s : State), r.toNat < 7 → s.mem.wf → ∃ t u, exec (.push r) s = .next t ∧ exec (.pop r) t = .next u ∧
    u.x = s.x ∧ u.sp = s.sp ∧ u.readByte (s.sp - 1) = regAt s.x r) ∧
  (∀ (r : Byte) (s t u : State), r.toNat < 8 → s.mem.wf → exec (.call r) s = .next t → u.sp = t.sp →
    u.readByte t.sp = t.readByte t.sp → ∃ v, exec .ret u = .next v ∧ v.pc = s.pc + 2 ∧ v.sp = s.sp) ∧
  ∀ (r : Byte) (s : State) (ov : OverflowPolicy), r.toNat < 7 → s.sp = 0 → ∃ t u,
    execUnder { addrPolicy := .clamp, overflowPolicy := ov } (.push r) s = .next t ∧ t.sp = 0 ∧
    execUnder { addrPolicy := .clamp, overflowPolicy := ov } (.pop r) t = .next u ∧ u.sp = 1

/-- Fetch sees an earlier store at once, and not the store of its own step: a byte pushed onto the next instruction's opcode is decoded
by the next step, the return address of a CALL to the cell below the stack is decoded as an opcode, and a PUSH that overwrites its own
operand byte still pushes the register that byte named (R15, R60). -/
def Obligations.FetchSeesEarlierStores : Prop :=
  (∀ (r : Byte) (s : State), s.mem.wf → s.status = .running → s.fetch decided = some (.push r) → r.toNat < 7 → s.sp - 1 = s.pc + 2 →
    ∃ t, step s = .next t ∧
      t.fetch decided = decodeWindow (regAt s.x r) (s.readByte (s.pc + 3)) (s.readByte (s.pc + 4))) ∧
  (∀ s : State, s.mem.wf → s.status = .running → s.fetch decided = some (.call 7) →
    ∃ t, step s = .next t ∧ t.fetch decided = decodeWindow (s.pc + 2) (s.readByte s.sp) (s.readByte (s.sp + 1))) ∧
  ∀ (r : Byte) (s : State), s.mem.wf → s.status = .running → s.fetch decided = some (.push r) → r.toNat < 7 → s.sp - 1 = s.pc + 1 →
    ∃ t, step s = .next t ∧ t.readByte (s.pc + 1) = regAt s.x r

/-! ## The sub-blocks -/

/-- The seven sub-blocks wired together give, for every step and under any policies, the state change the pseudocode gives (R40 to R46). -/
def Obligations.DatapathEqualsThePseudocode : Prop :=
  ∀ (cfg : Config) (s : State), datapathStep cfg s = stepUnder cfg s
end

