-- ==== Sys2Proof/Laws/State.lean ====
section
/-! SUPPORT. One lemma per field of State and per update of it, so that no proof unfolds a record update. -/
namespace Sys2Proof.Machine

variable (s : State)

@[simp] theorem State.setReg_mem (i : RegIndex) (v : Byte) : (s.setReg i v).mem = s.mem := rfl
@[simp] theorem State.setReg_x (i : RegIndex) (v : Byte) : (s.setReg i v).x = s.x.set i.val v := rfl
@[simp] theorem State.setReg_pc (i : RegIndex) (v : Byte) : (s.setReg i v).pc = s.pc := rfl
@[simp] theorem State.setReg_fl (i : RegIndex) (v : Byte) : (s.setReg i v).fl = s.fl := rfl
@[simp] theorem State.setReg_status (i : RegIndex) (v : Byte) : (s.setReg i v).status = s.status := rfl
@[simp] theorem State.setReg_out (i : RegIndex) (v : Byte) : (s.setReg i v).out = s.out := rfl

@[simp] theorem State.setSp_mem (v : Byte) : (s.setSp v).mem = s.mem := rfl
@[simp] theorem State.setSp_x (v : Byte) : (s.setSp v).x = s.x.set spIndex.val v := rfl
@[simp] theorem State.setSp_pc (v : Byte) : (s.setSp v).pc = s.pc := rfl
@[simp] theorem State.setSp_fl (v : Byte) : (s.setSp v).fl = s.fl := rfl
@[simp] theorem State.setSp_status (v : Byte) : (s.setSp v).status = s.status := rfl
@[simp] theorem State.setSp_out (v : Byte) : (s.setSp v).out = s.out := rfl

@[simp] theorem State.writeByte_mem (a v : Byte) : (s.writeByte a v).mem = s.mem.write a v := rfl
@[simp] theorem State.writeByte_x (a v : Byte) : (s.writeByte a v).x = s.x := rfl
@[simp] theorem State.writeByte_pc (a v : Byte) : (s.writeByte a v).pc = s.pc := rfl
@[simp] theorem State.writeByte_fl (a v : Byte) : (s.writeByte a v).fl = s.fl := rfl
@[simp] theorem State.writeByte_status (a v : Byte) : (s.writeByte a v).status = s.status := rfl
@[simp] theorem State.writeByte_out (a v : Byte) : (s.writeByte a v).out = s.out := rfl

@[simp] theorem State.setPc_mem (t : Byte) : (s.setPc t).mem = s.mem := rfl
@[simp] theorem State.setPc_x (t : Byte) : (s.setPc t).x = s.x := rfl
@[simp] theorem State.setPc_pc (t : Byte) : (s.setPc t).pc = t := rfl
@[simp] theorem State.setPc_fl (t : Byte) : (s.setPc t).fl = s.fl := rfl
@[simp] theorem State.setPc_status (t : Byte) : (s.setPc t).status = s.status := rfl
@[simp] theorem State.setPc_out (t : Byte) : (s.setPc t).out = s.out := rfl

@[simp] theorem State.emit_mem (v : Byte) : (s.emit v).mem = s.mem := rfl
@[simp] theorem State.emit_x (v : Byte) : (s.emit v).x = s.x := rfl
@[simp] theorem State.emit_pc (v : Byte) : (s.emit v).pc = s.pc := rfl
@[simp] theorem State.emit_fl (v : Byte) : (s.emit v).fl = s.fl := rfl
@[simp] theorem State.emit_status (v : Byte) : (s.emit v).status = s.status := rfl
@[simp] theorem State.emit_out (v : Byte) : (s.emit v).out = s.out ++ [v] := rfl

@[simp] theorem State.setStatus_mem (v : Status) : (s.setStatus v).mem = s.mem := rfl
@[simp] theorem State.setStatus_x (v : Status) : (s.setStatus v).x = s.x := rfl
@[simp] theorem State.setStatus_pc (v : Status) : (s.setStatus v).pc = s.pc := rfl
@[simp] theorem State.setStatus_fl (v : Status) : (s.setStatus v).fl = s.fl := rfl
@[simp] theorem State.setStatus_status (v : Status) : (s.setStatus v).status = v := rfl
@[simp] theorem State.setStatus_out (v : Status) : (s.setStatus v).out = s.out := rfl

@[simp] theorem State.setFl_mem (f : FlagWord) : (s.setFl f).mem = s.mem := rfl
@[simp] theorem State.setFl_x (f : FlagWord) : (s.setFl f).x = s.x := rfl
@[simp] theorem State.setFl_pc (f : FlagWord) : (s.setFl f).pc = s.pc := rfl
@[simp] theorem State.setFl_fl (f : FlagWord) : (s.setFl f).fl = f := rfl
@[simp] theorem State.setFl_status (f : FlagWord) : (s.setFl f).status = s.status := rfl
@[simp] theorem State.setFl_out (f : FlagWord) : (s.setFl f).out = s.out := rfl

/-! The state a fault leaves: the one before the instruction but for its status (R13, R209). -/

@[simp] theorem takeFault_mem (c : FaultCause) (opc : Byte) : (takeFault c opc s).mem = s.mem := rfl
@[simp] theorem takeFault_x (c : FaultCause) (opc : Byte) : (takeFault c opc s).x = s.x := rfl
@[simp] theorem takeFault_pc (c : FaultCause) (opc : Byte) : (takeFault c opc s).pc = s.pc := rfl
@[simp] theorem takeFault_fl (c : FaultCause) (opc : Byte) : (takeFault c opc s).fl = s.fl := rfl
@[simp] theorem takeFault_status (c : FaultCause) (opc : Byte) : (takeFault c opc s).status = .faulted { cause := c, pc := s.pc, opcode := opc } := rfl
@[simp] theorem takeFault_out (c : FaultCause) (opc : Byte) : (takeFault c opc s).out = s.out := rfl

/-! The accessors see only the field they read. -/

@[simp] theorem State.readByte_setReg (i : RegIndex) (v : Byte) (a : Byte) : (s.setReg i v).readByte a = s.readByte a := rfl
@[simp] theorem State.flagE_setReg (i : RegIndex) (v : Byte) : (s.setReg i v).flagE = s.flagE := rfl
@[simp] theorem State.pcPlus_setReg (i : RegIndex) (v : Byte) (cfg : Config) (k : Nat) : (s.setReg i v).pcPlus cfg k = s.pcPlus cfg k := rfl
@[simp] theorem State.readByte_setSp (v : Byte) (a : Byte) : (s.setSp v).readByte a = s.readByte a := rfl
@[simp] theorem State.flagE_setSp (v : Byte) : (s.setSp v).flagE = s.flagE := rfl
@[simp] theorem State.pcPlus_setSp (v : Byte) (cfg : Config) (k : Nat) : (s.setSp v).pcPlus cfg k = s.pcPlus cfg k := rfl
@[simp] theorem State.reg_writeByte (a v : Byte) (j : RegIndex) : (s.writeByte a v).reg j = s.reg j := rfl
@[simp] theorem State.sp_writeByte (a v : Byte) : (s.writeByte a v).sp = s.sp := rfl
@[simp] theorem State.flagE_writeByte (a v : Byte) : (s.writeByte a v).flagE = s.flagE := rfl
@[simp] theorem State.pcPlus_writeByte (a v : Byte) (cfg : Config) (k : Nat) : (s.writeByte a v).pcPlus cfg k = s.pcPlus cfg k := rfl
@[simp] theorem State.readByte_setPc (t : Byte) (a : Byte) : (s.setPc t).readByte a = s.readByte a := rfl
@[simp] theorem State.reg_setPc (t : Byte) (j : RegIndex) : (s.setPc t).reg j = s.reg j := rfl
@[simp] theorem State.sp_setPc (t : Byte) : (s.setPc t).sp = s.sp := rfl
@[simp] theorem State.flagE_setPc (t : Byte) : (s.setPc t).flagE = s.flagE := rfl
@[simp] theorem State.readByte_emit (v : Byte) (a : Byte) : (s.emit v).readByte a = s.readByte a := rfl
@[simp] theorem State.reg_emit (v : Byte) (j : RegIndex) : (s.emit v).reg j = s.reg j := rfl
@[simp] theorem State.sp_emit (v : Byte) : (s.emit v).sp = s.sp := rfl
@[simp] theorem State.flagE_emit (v : Byte) : (s.emit v).flagE = s.flagE := rfl
@[simp] theorem State.pcPlus_emit (v : Byte) (cfg : Config) (k : Nat) : (s.emit v).pcPlus cfg k = s.pcPlus cfg k := rfl
@[simp] theorem State.readByte_setStatus (v : Status) (a : Byte) : (s.setStatus v).readByte a = s.readByte a := rfl
@[simp] theorem State.reg_setStatus (v : Status) (j : RegIndex) : (s.setStatus v).reg j = s.reg j := rfl
@[simp] theorem State.sp_setStatus (v : Status) : (s.setStatus v).sp = s.sp := rfl
@[simp] theorem State.flagE_setStatus (v : Status) : (s.setStatus v).flagE = s.flagE := rfl
@[simp] theorem State.pcPlus_setStatus (v : Status) (cfg : Config) (k : Nat) : (s.setStatus v).pcPlus cfg k = s.pcPlus cfg k := rfl
@[simp] theorem State.readByte_setFl (f : FlagWord) (a : Byte) : (s.setFl f).readByte a = s.readByte a := rfl
@[simp] theorem State.reg_setFl (f : FlagWord) (j : RegIndex) : (s.setFl f).reg j = s.reg j := rfl
@[simp] theorem State.sp_setFl (f : FlagWord) : (s.setFl f).sp = s.sp := rfl
@[simp] theorem State.pcPlus_setFl (f : FlagWord) (cfg : Config) (k : Nat) : (s.setFl f).pcPlus cfg k = s.pcPlus cfg k := rfl

/-! Reading a register after a write of one (R21, R22). -/

@[simp] theorem State.reg_setReg_self (i : RegIndex) (v : Byte) : (s.setReg i v).reg i = v := by
  simp [State.reg]

theorem State.reg_setReg_ne (i j : RegIndex) (v : Byte) (h : j ≠ i) : (s.setReg i v).reg j = s.reg j := by
  have hv : i.val ≠ j.val := fun e => h (Fin.ext e.symm)
  simp [State.reg, hv]

theorem State.reg_setReg (i j : RegIndex) (v : Byte) : (s.setReg i v).reg j = if j = i then v else s.reg j := by
  split
  · next h => rw [h, State.reg_setReg_self]
  · next h => exact State.reg_setReg_ne s i j v h

@[simp] theorem State.sp_setSp (v : Byte) : (s.setSp v).sp = v := State.reg_setReg_self s spIndex v

theorem State.reg_setSp (j : RegIndex) (v : Byte) : (s.setSp v).reg j = if j = spIndex then v else s.reg j :=
  State.reg_setReg s spIndex j v

theorem State.sp_setReg (i : RegIndex) (v : Byte) : (s.setReg i v).sp = if spIndex = i then v else s.sp :=
  State.reg_setReg s i spIndex v

end Sys2Proof.Machine
end

