-- ==== Sys2Proof/Laws/Memory.lean ====
section
/-! SUPPORT. The laws of memory: a read after a write, and the canonical form that every operation keeps (20_memory.md R51). -/
namespace Sys2Proof.Machine

/-- An address below every listed one reads as unlisted. -/
theorem Memory.get_of_lt {m : Memory} {a : Nat} (h : ∀ c ∈ m, a < c.1) : m.get a = Memory.unlisted := by
  induction m with
  | nil => rfl
  | cons c rest ih =>
    obtain ⟨b, w⟩ := c
    have hb : a < b := h (b, w) (by simp)
    simp only [Memory.get, if_neg (Nat.ne_of_lt hb)]
    exact ih fun c hc => h c (List.mem_cons_of_mem _ hc)

/-- A write leaves every other address as it was, in any list. -/
theorem Memory.get_put_ne (m : Memory) {a b : Nat} (v : Byte) (h : b ≠ a) : (m.put a v).get b = m.get b := by
  induction m with
  | nil =>
    simp only [Memory.put]
    split <;> simp [Memory.get, h]
  | cons c rest ih =>
    obtain ⟨k, w⟩ := c
    simp only [Memory.put]
    split
    · split <;> simp [Memory.get, h]
    · split
      · next hk => subst hk; split <;> simp [Memory.get, h]
      · simp only [Memory.get, ih]

/-- A read after a write of the same address gives the value written, in canonical form. -/
theorem Memory.get_put_self {m : Memory} (hm : m.wf) (a : Nat) (v : Byte) : (m.put a v).get a = v := by
  induction m with
  | nil =>
    simp only [Memory.put]
    split
    · next h => exact h.symm
    · simp [Memory.get]
  | cons c rest ih =>
    obtain ⟨k, w⟩ := c
    have hrest : Memory.wf rest := ⟨(List.pairwise_cons.1 hm.1).2, fun c hc => hm.2 c (List.mem_cons_of_mem _ hc)⟩
    have hlt : ∀ c ∈ rest, k < c.1 := fun c hc => (List.pairwise_cons.1 hm.1).1 c hc
    simp only [Memory.put]
    split
    · next ha =>
      split
      · next hv =>
        have hall : ∀ c ∈ (k, w) :: rest, a < c.1 := by
          intro c hc
          rcases List.mem_cons.1 hc with rfl | hc
          · exact ha
          · exact Nat.lt_trans ha (hlt c hc)
        rw [Memory.get_of_lt hall, hv]
      · simp [Memory.get]
    · split
      · next hk =>
        subst hk
        split
        · next hv => rw [Memory.get_of_lt hlt, hv]
        · simp [Memory.get]
      · next hk => simp only [Memory.get, if_neg hk, ih hrest]

/-- What a write can list: what was listed, and the pair written. -/
theorem Memory.mem_put {m : Memory} {a : Nat} {v : Byte} {c : Host.Cell} (h : c ∈ m.put a v) :
    c ∈ m ∨ (c = (a, v) ∧ v ≠ Memory.unlisted) := by
  induction m with
  | nil =>
    simp only [Memory.put] at h
    split at h <;> simp_all
  | cons d rest ih =>
    obtain ⟨k, w⟩ := d
    simp only [Memory.put] at h
    split at h
    · split at h
      · exact .inl h
      · next hv => rcases List.mem_cons.1 h with h | h
                   · exact .inr ⟨h, hv⟩
                   · exact .inl h
    · split at h
      · split at h
        · exact .inl (List.mem_cons_of_mem _ h)
        · next hv => rcases List.mem_cons.1 h with h | h
                     · exact .inr ⟨h, hv⟩
                     · exact .inl (List.mem_cons_of_mem _ h)
      · rcases List.mem_cons.1 h with h | h
        · exact .inl (by simp [h])
        · rcases ih h with h | h
          · exact .inl (List.mem_cons_of_mem _ h)
          · exact .inr h

/-- A write at an address of the machine keeps the canonical form. -/
theorem Memory.put_wf {m : Memory} (hm : m.wf) {a : Nat} (ha : a < 256) (v : Byte) : (m.put a v).wf := by
  refine ⟨?_, fun c hc => ?_⟩
  · induction m with
    | nil => simp only [Memory.put]; split <;> simp
    | cons d rest ih =>
      obtain ⟨k, w⟩ := d
      have hp := List.pairwise_cons.1 hm.1
      have hrest : Memory.wf rest := ⟨hp.2, fun c hc => hm.2 c (List.mem_cons_of_mem _ hc)⟩
      simp only [Memory.put]
      split
      · next hak =>
        split
        · exact hm.1
        · refine List.pairwise_cons.2 ⟨fun c hc => ?_, hm.1⟩
          rcases List.mem_cons.1 hc with rfl | hc
          · exact hak
          · exact Nat.lt_trans hak (hp.1 c hc)
      · split
        · next hk =>
          subst hk
          split
          · exact hp.2
          · exact List.pairwise_cons.2 ⟨hp.1, hp.2⟩
        · next h1 h2 =>
          refine List.pairwise_cons.2 ⟨fun c hc => ?_, ih hrest⟩
          rcases Memory.mem_put hc with hc | ⟨rfl, -⟩
          · exact hp.1 c hc
          · show k < a; omega
  · rcases Memory.mem_put hc with hc | ⟨rfl, hv⟩
    · exact hm.2 c hc
    · exact ⟨ha, hv⟩

/-- `MemWrite` keeps the canonical form. -/
theorem Memory.write_wf {m : Memory} (hm : m.wf) (a v : Byte) : (m.write a v).wf := Memory.put_wf hm a.isLt v

/-- `MemRead` after `MemWrite` at the same address (R51). -/
theorem Memory.read_write_self {m : Memory} (hm : m.wf) (a v : Byte) : (m.write a v).read a = v := Memory.get_put_self hm a.toNat v

/-- `MemRead` after `MemWrite` at another address (R51). -/
theorem Memory.read_write_ne (m : Memory) {a b : Byte} (v : Byte) (h : b ≠ a) : (m.write a v).read b = m.read b :=
  Memory.get_put_ne m v fun e => h (BitVec.eq_of_toNat_eq e)

/-- The same, over the state. -/
theorem State.readByte_writeByte_ne (s : State) {a b : Byte} (v : Byte) (h : b ≠ a) : (s.writeByte a v).readByte b = s.readByte b :=
  Memory.read_write_ne s.mem v h

/-- The same, over the state. -/
theorem State.readByte_writeByte_self {s : State} (hm : s.mem.wf) (a v : Byte) : (s.writeByte a v).readByte a = v :=
  Memory.read_write_self hm a v

/-- The memory of the reset state is in canonical form. -/
theorem State.reset_mem_wf : State.reset.mem.wf := ⟨List.Pairwise.nil, fun _ h => absurd h List.not_mem_nil⟩

/-- Placing bytes keeps the canonical form. -/
theorem State.writeBytes_mem_wf (bs : List Byte) (a : Byte) {s : State} (hm : s.mem.wf) : (s.writeBytes a bs).mem.wf := by
  induction bs generalizing a s with
  | nil => exact hm
  | cons v vs ih => exact ih (a + 1) (Memory.write_wf hm a v)

/-- In canonical form a listed address reads as the byte it is listed with. -/
theorem Memory.get_of_mem {m : Memory} (hm : m.wf) {a : Nat} {v : Byte} (h : (a, v) ∈ m) : m.get a = v := by
  induction m with
  | nil => simp at h
  | cons c rest ih =>
    obtain ⟨k, w⟩ := c
    have hp := List.pairwise_cons.1 hm.1
    rcases List.mem_cons.1 h with h | h
    · obtain ⟨rfl, rfl⟩ := Prod.mk.inj h
      simp [Memory.get]
    · have hk : k < a := hp.1 (a, v) h
      simp only [Memory.get, if_neg (Nat.ne_of_gt hk)]
      exact ih ⟨hp.2, fun c hc => hm.2 c (List.mem_cons_of_mem _ hc)⟩ h

/-- A pair is listed exactly when its address reads as its byte and the byte is no unlisted one. -/
theorem Memory.mem_iff {m : Memory} (hm : m.wf) (a : Nat) (v : Byte) : (a, v) ∈ m ↔ m.get a = v ∧ v ≠ Memory.unlisted := by
  refine ⟨fun h => ⟨Memory.get_of_mem hm h, (hm.2 _ h).2⟩, ?_⟩
  rintro ⟨hg, hv⟩
  induction m with
  | nil => exact absurd hg.symm hv
  | cons c rest ih =>
    obtain ⟨k, w⟩ := c
    have hp := List.pairwise_cons.1 hm.1
    simp only [Memory.get] at hg
    split at hg
    · next hk => rw [hk, hg]; exact List.mem_cons_self
    · exact List.mem_cons_of_mem _ (ih ⟨hp.2, fun c hc => hm.2 c (List.mem_cons_of_mem _ hc)⟩ hg)

/-- Equal memories are equal data: two canonical lists that read the same everywhere are one list. -/
theorem Memory.ext_of_wf {m n : Memory} (hm : m.wf) (hn : n.wf) (h : ∀ a : Byte, m.read a = n.read a) : m = n := by
  have hget : ∀ a, a < 256 → m.get a = n.get a := fun a ha => by
    have := h (BitVec.ofNat 8 a)
    simpa [Memory.read, Nat.mod_eq_of_lt ha] using this
  have hsub : ∀ {p q : Memory}, p.wf → q.wf → (∀ a, a < 256 → p.get a = q.get a) → ∀ c ∈ p, c ∈ q := by
    intro p q hp hq hpq ⟨a, v⟩ hc
    have hav := (Memory.mem_iff hp a v).1 hc
    exact (Memory.mem_iff hq a v).2 ⟨(hpq a (hp.2 _ hc).1).symm.trans hav.1, hav.2⟩
  have nd : ∀ {p : Memory}, p.wf → p.Nodup := fun hp =>
    hp.1.imp fun hlt e => absurd (congrArg Prod.fst e) (Nat.ne_of_lt hlt)
  have hperm : List.Perm m n := (List.perm_ext_iff_of_nodup (nd hm) (nd hn)).2 fun c =>
    ⟨hsub hm hn hget c, hsub hn hm (fun a ha => (hget a ha).symm) c⟩
  exact hperm.eq_of_pairwise (fun a b _ _ h1 h2 => absurd h1 (Nat.lt_asymm h2)) hm.1 hn.1

end Sys2Proof.Machine
end

