-- ==== Sys2Proof/Laws/Ops.lean ====
section
/-! SUPPORT. What each shared operation can do, said once: the normalisers under the decided policies, the register check, and the
inversion lemmas of the operations that may raise. -/
namespace Sys2Proof.Machine

/-! ## The decided policies -/

@[simp] theorem decided_addrPolicy : decided.addrPolicy = .wrap := rfl
@[simp] theorem decided_overflowPolicy : decided.overflowPolicy = .wrap := rfl

/-- `A(e)` never raises under Wrap (R12). -/
@[simp] theorem normAddr_decided (e : Int) : normAddr decided e = .ok (BitVec.ofInt 8 e) := rfl

/-- `V(e)` never raises under Wrap (R12). -/
@[simp] theorem normValue_decided (e : Int) : normValue decided e = .ok (BitVec.ofInt 8 e) := rfl

/-- `A(a + k)` is addition of bytes under Wrap. -/
theorem ofInt_toNat_add (a : Byte) (k : Nat) : BitVec.ofInt 8 ((a.toNat : Int) + k) = a + BitVec.ofNat 8 k := by
  apply BitVec.eq_of_toNat_eq
  simp only [BitVec.toNat_ofInt, BitVec.toNat_add, BitVec.toNat_ofNat]
  omega

/-- `A(a - 1)` is subtraction of bytes under Wrap. -/
theorem ofInt_toNat_sub_one (a : Byte) : BitVec.ofInt 8 ((a.toNat : Int) - 1) = a - 1 := by
  apply BitVec.eq_of_toNat_eq
  simp only [BitVec.toNat_ofInt, BitVec.toNat_sub]
  have := a.isLt
  simp
  omega

@[simp] theorem State.pcPlus_decided (s : State) (k : Nat) : s.pcPlus decided k = .ok (s.pc + BitVec.ofNat 8 k) :=
  congrArg Except.ok (ofInt_toNat_add s.pc k)

@[simp] theorem spDec_decided (sp : Byte) : spDec decided sp = .ok (sp - 1) := congrArg Except.ok (ofInt_toNat_sub_one sp)

@[simp] theorem spInc_decided (sp : Byte) : spInc decided sp = .ok (sp + 1) := congrArg Except.ok (ofInt_toNat_add sp 1)

@[simp] theorem State.advance_decided (s : State) (len : Nat) : s.advance decided len = .ok (s.setPc (s.pc + BitVec.ofNat 8 len)) := by
  simp [State.advance, bind, Except.bind, pure, Except.pure]

@[simp] theorem State.decSp_decided (s : State) : s.decSp decided = .ok (s.setSp (s.sp - 1)) := by
  simp [State.decSp, bind, Except.bind, pure, Except.pure]

@[simp] theorem State.incSp_decided (s : State) : s.incSp decided = .ok (s.setSp (s.sp + 1)) := by
  simp [State.incSp, bind, Except.bind, pure, Except.pure]

@[simp] theorem regOperand_decided (k : Nat) (b : Byte) (s : State) : regOperand decided k b s = regIndex b := by
  simp [regOperand, bind, Except.bind]

@[simp] theorem immOperand_decided (k : Nat) (b : Byte) (s : State) : immOperand decided k b s = .ok b := by
  simp [immOperand, bind, Except.bind, pure, Except.pure]

@[simp] theorem State.fetchByte_decided (s : State) (k : Nat) : s.fetchByte decided k = s.readByte (s.pc + BitVec.ofNat 8 k) := by
  simp [State.fetchByte]

/-! ## The register check (R12, R202) -/

theorem regIndex_of_lt {b : Byte} (h : b.toNat < 8) : regIndex b = .ok ⟨b.toNat, h⟩ := dif_pos h

theorem regIndex_of_ge {b : Byte} (h : 7 < b.toNat) : regIndex b = .error (.illegalRegisterIndex b) := dif_neg (by omega)

theorem regIndex_ok {b : Byte} {i : RegIndex} (h : regIndex b = .ok i) : b.toNat = i.val := by
  unfold regIndex at h
  split at h <;> cases h
  rfl

theorem regIndex_error {b : Byte} {c : FaultCause} (h : regIndex b = .error c) : c = .illegalRegisterIndex b ∧ 7 < b.toNat := by
  unfold regIndex at h
  split at h <;> cases h
  exact ⟨rfl, by omega⟩

/-! ## Inversion: what an operation answers, and what it raises -/

/-- A sequence of operations answers only what its parts answer. -/
theorem bind_ok {α β : Type} {x : Except FaultCause α} {f : α → Except FaultCause β} {b : β} (h : (x >>= f) = .ok b) :
    ∃ a, x = .ok a ∧ f a = .ok b := by
  cases x with
  | error c => cases h
  | ok a => exact ⟨a, rfl, h⟩

/-- A sequence of operations raises what its first raising part raises (R210). -/
theorem bind_error {α β : Type} {x : Except FaultCause α} {f : α → Except FaultCause β} {c : FaultCause} (h : (x >>= f) = .error c) :
    x = .error c ∨ ∃ a, x = .ok a ∧ f a = .error c := by
  cases x with
  | error d => exact .inl (by cases h; rfl)
  | ok a => exact .inr ⟨a, rfl, h⟩

/-- An address raises only under Fault, and only AddressOutOfRange of the address itself (R204). -/
theorem normAddr_error {cfg : Config} {e : Int} {c : FaultCause} (h : normAddr cfg e = .error c) :
    cfg.addrPolicy = .fault ∧ ¬ (0 ≤ e ∧ e ≤ 255) ∧ c = .addressOutOfRange e := by
  unfold normAddr at h
  split at h
  · cases h
  · cases h
  · next hp =>
    split at h
    · cases h
    · next he => cases h; exact ⟨hp, he, rfl⟩

/-- A value raises only under Fault, and only ArithmeticOverflow of the exact result (R203). -/
theorem normValue_error {cfg : Config} {e : Int} {c : FaultCause} (h : normValue cfg e = .error c) :
    cfg.overflowPolicy = .fault ∧ ¬ (0 ≤ e ∧ e ≤ 255) ∧ c = .arithmeticOverflow e := by
  unfold normValue at h
  split at h
  · cases h
  · next hp =>
    split at h
    · cases h
    · next he => cases h; exact ⟨hp, he, rfl⟩

/-- Inside 0..255 every policy keeps the address. -/
theorem normAddr_in_range (cfg : Config) {e : Int} (h0 : 0 ≤ e) (h1 : e ≤ 255) : normAddr cfg e = .ok (BitVec.ofInt 8 e) := by
  unfold normAddr
  split
  · rfl
  · rw [max_eq_left h0, min_eq_left h1]
  · exact if_pos ⟨h0, h1⟩

theorem State.advance_ok {cfg : Config} {len : Nat} {s t : State} (h : s.advance cfg len = .ok t) :
    ∃ pc, s.pcPlus cfg len = .ok pc ∧ t = s.setPc pc := by
  obtain ⟨pc, hpc, ht⟩ := bind_ok h
  exact ⟨pc, hpc, by cases ht; rfl⟩

theorem State.decSp_ok {cfg : Config} {s t : State} (h : s.decSp cfg = .ok t) :
    ∃ sp, spDec cfg s.sp = .ok sp ∧ t = s.setSp sp := by
  obtain ⟨sp, hsp, ht⟩ := bind_ok h
  exact ⟨sp, hsp, by cases ht; rfl⟩

theorem State.incSp_ok {cfg : Config} {s t : State} (h : s.incSp cfg = .ok t) :
    ∃ sp, spInc cfg s.sp = .ok sp ∧ t = s.setSp sp := by
  obtain ⟨sp, hsp, ht⟩ := bind_ok h
  exact ⟨sp, hsp, by cases ht; rfl⟩

theorem regOperand_ok {cfg : Config} {k : Nat} {b : Byte} {s : State} {i : RegIndex} (h : regOperand cfg k b s = .ok i) :
    b.toNat = i.val := by
  obtain ⟨_, _, hi⟩ := bind_ok h
  exact regIndex_ok hi

theorem immOperand_ok {cfg : Config} {k : Nat} {b v : Byte} {s : State} (h : immOperand cfg k b s = .ok v) : v = b := by
  obtain ⟨_, _, hv⟩ := bind_ok h
  cases hv
  rfl

/-- What one instruction can do: all its writes, or a fault and none of them (R13). -/
theorem perform_next {opc : Byte} {body : State → Except FaultCause State} {s t : State} (h : perform opc body s = .next t) :
    body s = .ok t ∨ ∃ c, body s = .error c ∧ t = takeFault c opc s := by
  unfold perform at h
  split at h
  · next hb => cases h; exact .inl hb
  · next c hb => cases h; exact .inr ⟨c, hb, rfl⟩

/-- One instruction always answers a next state. -/
theorem perform_total (opc : Byte) (body : State → Except FaultCause State) (s : State) : ∃ t, perform opc body s = .next t := by
  unfold perform
  split
  · exact ⟨_, rfl⟩
  · exact ⟨_, rfl⟩

theorem perform_ok {opc : Byte} {body : State → Except FaultCause State} {s t : State} (h : body s = .ok t) :
    perform opc body s = .next t := by simp [perform, h]

theorem perform_error {opc : Byte} {body : State → Except FaultCause State} {s : State} {c : FaultCause} (h : body s = .error c) :
    perform opc body s = .next (takeFault c opc s) := by simp [perform, h]

/-! ## Opcodes -/

/-- The class of a class's own code. -/
@[simp] theorem classOf_opcode (c : OpClass) : classOf (opcode c) = some c := by cases c <;> rfl

/-- A byte has a class exactly when it is that class's code (R76). -/
theorem classOf_eq_some {b : Byte} {c : OpClass} (h : classOf b = some c) : b = opcode c := by
  unfold classOf at h
  apply BitVec.eq_of_toNat_eq
  split at h <;> first | (cases h; assumption) | cases h

/-- The class of a decoded instruction is the class of its opcode byte. -/
theorem decodeWindow_class {opc op1 op2 : Byte} {i : Instr} (h : decodeWindow opc op1 op2 = some i) :
    classOf opc = some i.opClass := by
  unfold decodeWindow at h
  split at h <;> first | (cases h; assumption) | cases h

/-- The opcode byte of a decoded instruction is the one it was decoded from. -/
theorem decodeWindow_opcode {opc op1 op2 : Byte} {i : Instr} (h : decodeWindow opc op1 op2 = some i) : opc = opcodeOf i :=
  classOf_eq_some (decodeWindow_class h)

/-- A byte has no class exactly when nothing decodes from it. -/
theorem decodeWindow_none {opc op1 op2 : Byte} : decodeWindow opc op1 op2 = none ↔ classOf opc = none := by
  unfold decodeWindow
  split <;> simp [*]

end Sys2Proof.Machine
end

