-- ==== Sys2Proof/Laws/Exec.lean ====
section
/-! SUPPORT. The dispatch: `exec` is one `perform` of the instruction's pseudocode, and `step` one turn of the loop. Provers cite
these instead of unfolding the dispatch. -/
namespace Sys2Proof.Machine

/-- `exec` is the machine under the decided policies. -/
theorem exec_eq_execUnder (i : Instr) (s : State) : exec i s = execUnder decided i s := by cases i <;> rfl

/-- `exec` is one `perform` of the instruction's pseudocode. -/
theorem exec_eq_perform (i : Instr) (s : State) : exec i s = perform (opcodeOf i) (bodyUnder decided i) s :=
  exec_eq_execUnder i s

/-- `step` is the machine under the decided policies. -/
theorem step_eq_stepUnder (s : State) : step s = stepUnder decided s := by
  have h : exec = execUnder decided := funext fun i => funext fun s => exec_eq_execUnder i s
  unfold step stepUnder
  rw [h]

/-- One turn of the loop from Running, when an instruction is at pc. -/
theorem cycle_instr {cfg : Config} {r : Instr → State → Host.Outcome State Fault Refusal} {s : State} {i : Instr}
    (hs : s.status = .running) (hi : s.fetch cfg = some i) : cycle cfg r s = r i s := by simp [cycle, hs, hi]

/-- One turn of the loop from Running, when an unassigned opcode is at pc. -/
theorem cycle_unassigned {cfg : Config} {r : Instr → State → Host.Outcome State Fault Refusal} {s : State}
    (hs : s.status = .running) (hi : s.fetch cfg = none) : cycle cfg r s = execUnassigned cfg (s.readByte s.pc) s := by
  simp [cycle, hs, hi]

/-- One turn of the loop from a terminal state. -/
theorem cycle_terminal {cfg : Config} {r : Instr → State → Host.Outcome State Fault Refusal} {s : State}
    (hs : s.status ≠ .running) : cycle cfg r s = .next s := by
  unfold cycle
  split
  · next h => exact absurd h hs
  · rfl
  · rfl

/-- Everything one step can do under any policies: nothing from a terminal state; the whole pseudocode of the instruction at pc, or
of the skip; or the fault that pseudocode raises, which changes the status alone. -/
theorem stepUnder_cases {cfg : Config} {s t : State} (h : stepUnder cfg s = .next t) :
    (s.status ≠ .running ∧ t = s) ∨
    (s.status = .running ∧ ∃ i, s.fetch cfg = some i ∧
      (bodyUnder cfg i s = .ok t ∨ ∃ c, bodyUnder cfg i s = .error c ∧ t = takeFault c (s.readByte s.pc) s)) ∨
    (s.status = .running ∧ s.fetch cfg = none ∧
      (unassignedBody cfg s = .ok t ∨ ∃ c, unassignedBody cfg s = .error c ∧ t = takeFault c (s.readByte s.pc) s)) := by
  unfold stepUnder at h
  by_cases hs : s.status = .running
  · cases hi : s.fetch cfg with
    | some i =>
      rw [cycle_instr hs hi] at h
      have ho : s.readByte s.pc = opcodeOf i := decodeWindow_opcode hi
      refine .inr (.inl ⟨hs, i, rfl, ?_⟩)
      rw [ho]
      exact perform_next h
    | none =>
      rw [cycle_unassigned hs hi] at h
      exact .inr (.inr ⟨hs, rfl, perform_next h⟩)
  · rw [cycle_terminal hs] at h
    cases h
    exact .inl ⟨hs, rfl⟩

/-- The same for the machine under the decided policies. -/
theorem step_cases {s t : State} (h : step s = .next t) :
    (s.status ≠ .running ∧ t = s) ∨
    (s.status = .running ∧ ∃ i, s.fetch decided = some i ∧
      (bodyUnder decided i s = .ok t ∨ ∃ c, bodyUnder decided i s = .error c ∧ t = takeFault c (s.readByte s.pc) s)) ∨
    (s.status = .running ∧ s.fetch decided = none ∧
      (unassignedBody decided s = .ok t ∨ ∃ c, unassignedBody decided s = .error c ∧ t = takeFault c (s.readByte s.pc) s)) :=
  stepUnder_cases (step_eq_stepUnder s ▸ h)

/-- `runWith` from a terminal state stays there. -/
theorem runWith_terminal {f : State → Host.Outcome State Fault Refusal} (n : Nat) {s : State} (hs : s.status ≠ .running) :
    runWith f n s = .next s := by
  cases n with
  | zero => rfl
  | succ n =>
    unfold runWith
    split
    · next h => exact absurd h hs
    · rfl

/-- `runWith` from Running takes one step first. -/
theorem runWith_succ {f : State → Host.Outcome State Fault Refusal} (n : Nat) {s t : State} (hs : s.status = .running)
    (h : f s = .next t) : runWith f (n + 1) s = runWith f n t := by
  simp [runWith, hs, h]

end Sys2Proof.Machine
end

