-- ==== Sys2Proof/Laws/Checks.lean ====
section
/-! SUPPORT. The bridge from the operations to the vocabulary of the statements: an operation answers exactly when its check does not
raise, and a register named by an operand byte is `regAt` and `setAt` (Sys2Proof/Safety.lean). -/
namespace Sys2Proof.Machine

/-- `A(e)` answers `addrOf` where its check does not raise. -/
theorem normAddr_of_check {cfg : Config} {e : Int} (h : (Check.addr e).raises cfg = none) : normAddr cfg e = .ok (addrOf cfg e) := by
  obtain ⟨ap, ov⟩ := cfg
  cases ap with
  | wrap => rfl
  | clamp => rfl
  | fault =>
    simp only [Check.raises] at h
    split at h
    · cases h
    · next hr => exact if_pos (by simpa using hr)

/-- `A(e)` raises what its check raises. -/
theorem normAddr_of_raise {cfg : Config} {e : Int} {c : FaultCause} (h : (Check.addr e).raises cfg = some c) :
    normAddr cfg e = .error c := by
  obtain ⟨ap, ov⟩ := cfg
  simp only [Check.raises] at h
  split at h
  · next hr =>
    cases h
    obtain ⟨rfl, hr⟩ := hr
    exact if_neg hr
  · cases h

/-- `V(e)` answers the low byte where its check does not raise. -/
theorem normValue_of_check {cfg : Config} {e : Int} (h : (Check.value e).raises cfg = none) :
    normValue cfg e = .ok (BitVec.ofInt 8 e) := by
  obtain ⟨ap, ov⟩ := cfg
  cases ov with
  | wrap => rfl
  | fault =>
    simp only [Check.raises] at h
    split at h
    · cases h
    · next hr => exact if_pos (by simpa using hr)

/-- `V(e)` raises what its check raises. -/
theorem normValue_of_raise {cfg : Config} {e : Int} {c : FaultCause} (h : (Check.value e).raises cfg = some c) :
    normValue cfg e = .error c := by
  obtain ⟨ap, ov⟩ := cfg
  simp only [Check.raises] at h
  split at h
  · next hr =>
    cases h
    obtain ⟨rfl, hr⟩ := hr
    exact if_neg hr
  · cases h

/-- `reg(b)` answers where its check does not raise. -/
theorem regIndex_of_check {cfg : Config} {b : Byte} (h : (Check.reg b).raises cfg = none) :
    ∃ hb : b.toNat < 8, regIndex b = .ok ⟨b.toNat, hb⟩ := by
  simp only [Check.raises] at h
  split at h
  · cases h
  · next hb => exact ⟨by omega, regIndex_of_lt (by omega)⟩

/-- `reg(b)` raises what its check raises. -/
theorem regIndex_of_raise {cfg : Config} {b : Byte} {c : FaultCause} (h : (Check.reg b).raises cfg = some c) :
    regIndex b = .error c := by
  simp only [Check.raises] at h
  split at h
  · next hb => cases h; exact regIndex_of_ge hb
  · cases h

/-- Under the decided policies no address and no value raises. -/
@[simp] theorem addr_raises_decided (e : Int) : (Check.addr e).raises decided = none := rfl
@[simp] theorem value_raises_decided (e : Int) : (Check.value e).raises decided = none := rfl

@[simp] theorem firstRaise_nil (cfg : Config) : firstRaise cfg [] = none := rfl

/-- The first raise of a list is its head's, or else its tail's (R210). -/
theorem firstRaise_cons (cfg : Config) (c : Check) (cs : List Check) :
    firstRaise cfg (c :: cs) = (c.raises cfg).or (firstRaise cfg cs) := by
  unfold firstRaise
  rw [List.findSome?_cons]
  cases c.raises cfg <;> rfl

/-- The register an operand byte names. -/
theorem reg_eq_regAt (s : State) {b : Byte} (h : b.toNat < 8) : s.reg ⟨b.toNat, h⟩ = regAt s.x b := by
  simp [State.reg, regAt, h]

/-- The write of the register an operand byte names. -/
theorem setReg_eq_setAt (s : State) {b : Byte} (h : b.toNat < 8) (v : Byte) :
    s.setReg ⟨b.toNat, h⟩ v = { s with x := setAt s.x b v } := by
  simp [State.setReg, setAt, h]

/-- SP is the register that operand byte 7 names (R22). -/
theorem sp_eq_regAt (s : State) : s.sp = regAt s.x 7 := reg_eq_regAt s (b := 7) (by decide)

/-- A write of SP is a write of the register that operand byte 7 names (R22). -/
theorem setSp_eq_setAt (s : State) (v : Byte) : s.setSp v = { s with x := setAt s.x 7 v } :=
  setReg_eq_setAt s (b := 7) (by decide) v

/-- Reading back the register just set. -/
theorem regAt_setAt_self (x : Vector Byte 8) {b : Byte} (h : b.toNat < 8) (v : Byte) : regAt (setAt x b v) b = v := by
  simp [regAt, setAt, h]

/-- Reading another register than the one just set. -/
theorem regAt_setAt_ne (x : Vector Byte 8) {a b : Byte} (v : Byte) (h : a ≠ b) : regAt (setAt x b v) a = regAt x a := by
  have hn : b.toNat ≠ a.toNat := fun e => h (BitVec.eq_of_toNat_eq e.symm)
  unfold regAt setAt
  split
  · split
    · simp [hn]
    · rfl
  · rfl

end Sys2Proof.Machine
end

