-- ==== Sys2Proof/Laws/PerInstr.lean ====
section
/-! SUPPORT. Facts about every instruction as syntax, one lemma per constructor: its bytes start with its opcode byte and are as many as
it is long, one per operand beside the opcode (30_encoding.md R70, R71). -/
namespace Sys2Proof.Laws.Encoding

/-- The encoder writes the opcode byte first, and one byte more for each operand of the instruction's format. -/
def Statement (i : Instr) : Prop :=
  (encode i).head? = some (opcodeOf i) ∧ (encode i).length = i.length ∧ i.length = i.opClass.format.operands.length + 1

theorem ldi (r imm : Byte) : Statement (.ldi r imm) := ⟨rfl, rfl, rfl⟩
theorem prn (r : Byte) : Statement (.prn r) := ⟨rfl, rfl, rfl⟩
theorem hlt : Statement .hlt := ⟨rfl, rfl, rfl⟩
theorem mul (ra rb : Byte) : Statement (.mul ra rb) := ⟨rfl, rfl, rfl⟩
theorem add (ra rb : Byte) : Statement (.add ra rb) := ⟨rfl, rfl, rfl⟩
theorem push (r : Byte) : Statement (.push r) := ⟨rfl, rfl, rfl⟩
theorem pop (r : Byte) : Statement (.pop r) := ⟨rfl, rfl, rfl⟩
theorem call (r : Byte) : Statement (.call r) := ⟨rfl, rfl, rfl⟩
theorem ret : Statement .ret := ⟨rfl, rfl, rfl⟩
theorem cmp (ra rb : Byte) : Statement (.cmp ra rb) := ⟨rfl, rfl, rfl⟩
theorem jmp (r : Byte) : Statement (.jmp r) := ⟨rfl, rfl, rfl⟩
theorem jeq (r : Byte) : Statement (.jeq r) := ⟨rfl, rfl, rfl⟩
theorem jne (r : Byte) : Statement (.jne r) := ⟨rfl, rfl, rfl⟩

end Sys2Proof.Laws.Encoding
end

