-- ==== Sys2Proof/Tests/Slice0.lean ====
section
/-! SUPPORT. The model's own tests: well-formedness, decoding of words written out from the encoding table, one step per instruction with the
results of spec/95_test_vectors.md (the vector's id stands beside each), and for each statement with hypotheses a state that meets
them. -/
namespace Sys2Proof.Tests

open Sys2Proof Sys2Proof.Machine

/-! ## WellFormed refuses an ill-formed term for each check -/

theorem test_wf_ldi_refuses_8 : (Instr.ldi 8 1).wf = false := by decide
theorem test_wf_prn_refuses_200 : (Instr.prn 200).wf = false := by decide
theorem test_wf_mul_refuses_first : (Instr.mul 8 0).wf = false := by decide
theorem test_wf_mul_refuses_second : (Instr.mul 0 8).wf = false := by decide
theorem test_wf_add_refuses_first : (Instr.add 8 0).wf = false := by decide
theorem test_wf_add_refuses_second : (Instr.add 0 255).wf = false := by decide
theorem test_wf_push_refuses_8 : (Instr.push 8).wf = false := by decide
theorem test_wf_pop_refuses_8 : (Instr.pop 8).wf = false := by decide
theorem test_wf_call_refuses_8 : (Instr.call 8).wf = false := by decide
theorem test_wf_cmp_refuses_first : (Instr.cmp 9 0).wf = false := by decide
theorem test_wf_cmp_refuses_second : (Instr.cmp 0 9).wf = false := by decide
theorem test_wf_jmp_refuses_8 : (Instr.jmp 8).wf = false := by decide
theorem test_wf_jeq_refuses_8 : (Instr.jeq 8).wf = false := by decide
theorem test_wf_jne_refuses_8 : (Instr.jne 8).wf = false := by decide
theorem test_wf_accepts_r7_and_any_immediate : (Instr.ldi 7 255).wf = true ∧ Instr.hlt.wf = true ∧ Instr.ret.wf = true := by decide

/-! ## Decoding: every constructor's word, from the binary column of R73 and the formats of R71 -/

theorem test_decode_ldi : decodeWindow 0b10000010 0b00000000 0b00000101 = some (.ldi 0 5) := by decide
theorem test_decode_prn : decodeWindow 0b01000111 0b00000101 0b11111111 = some (.prn 5) := by decide
theorem test_decode_hlt : decodeWindow 0b00000001 0b11111111 0b11111111 = some .hlt := by decide
theorem test_decode_mul : decodeWindow 0b10100010 0b00000010 0b00000011 = some (.mul 2 3) := by decide
theorem test_decode_add : decodeWindow 0b10100000 0b00000000 0b00000001 = some (.add 0 1) := by decide
theorem test_decode_push : decodeWindow 0b01000101 0b00000111 0b00000000 = some (.push 7) := by decide
theorem test_decode_pop : decodeWindow 0b01000110 0b00000111 0b00000000 = some (.pop 7) := by decide
theorem test_decode_call : decodeWindow 0b01010000 0b00000001 0b00000000 = some (.call 1) := by decide
theorem test_decode_ret : decodeWindow 0b00010001 0b00000000 0b00000000 = some .ret := by decide
theorem test_decode_cmp : decodeWindow 0b10100111 0b00000000 0b00001001 = some (.cmp 0 9) := by decide
theorem test_decode_jmp : decodeWindow 0b01010100 0b00000011 0b00000000 = some (.jmp 3) := by decide
theorem test_decode_jeq : decodeWindow 0b01010101 0b00000010 0b00000000 = some (.jeq 2) := by decide
theorem test_decode_jne : decodeWindow 0b01010110 0b00000011 0b00000000 = some (.jne 3) := by decide
/-- L8: 192 has bits [7:6] = 3 and is unassigned all the same. -/
theorem test_decode_unassigned_192 : decodeWindow 192 1 1 = none := by decide
theorem test_decode_stream : decode [130, 0, 5, 71, 0] = .ok (.ldi 0 5, [71, 0]) := by decide
theorem test_decode_truncated : decode [130, 0] = .error (.truncated 130) ∧ decode [] = .error .noBytes := by decide
theorem test_decodeTableWord : decodeTableWord 24 0x050082 = some (.ldi 0 5) ∧ decodeTableWord 8 0xFF47 = some (.prn 0) := by decide

/-! ## One step per instruction -/

/-- A reset machine with eight register values and a pc. -/
def machine (x : Vector Byte 8) (pc : Byte) : State := { State.reset with x := x, pc := pc }

/-- The same, with one byte of memory set. -/
def machineWith (x : Vector Byte 8) (pc a v : Byte) : State := (machine x pc).writeByte a v

/-- One fact of the next state. -/
def after {α : Type} (o : Host.Outcome State Fault Refusal) (f : State → α) : Option α := (nextState? o).map f

/-- D2 -/
theorem test_ldi_r7 : after (exec (.ldi 7 240) State.reset) (fun t => (t.sp, t.pc)) = some (240, 3) := by decide
/-- D4 -/
theorem test_ldi_register_8 : after (exec (.ldi 8 1) State.reset) (·.status) =
    some (.faulted { cause := .illegalRegisterIndex 8, pc := 0, opcode := 130 }) := by decide
/-- D6 -/
theorem test_prn : after (exec (.prn 0) (machine #v[15, 0, 0, 0, 0, 0, 0, 0] 9)) (fun t => (t.out, t.pc)) = some ([15], 11) := by decide
/-- D8 -/
theorem test_prn_faulting_emits_nothing : after (exec (.prn 200) State.reset) (fun t => (t.out, t.pc)) = some ([], 0) := by decide
/-- L3 -/
theorem test_hlt : after (exec .hlt (machine (Vector.replicate 8 0) 13)) (fun t => (t.status, t.pc)) = some (.halted, 13) := by decide
/-- A2 -/
theorem test_add_wraps : after (exec (.add 0 1) (machine #v[200, 100, 0, 0, 0, 0, 0, 0] 6)) (fun t => (t.reg 0, t.pc)) = some (44, 9) := by
  decide
/-- A4 -/
theorem test_add_same_register : after (exec (.add 2 2) (machine #v[0, 0, 128, 0, 0, 0, 0, 0] 0)) (·.reg 2) = some 0 := by decide
/-- A6 -/
theorem test_mul_wraps : after (exec (.mul 0 1) (machine #v[20, 13, 0, 0, 0, 0, 0, 0] 0)) (·.reg 0) = some 4 := by decide
/-- A8 -/
theorem test_mul_largest : after (exec (.mul 0 1) (machine #v[255, 255, 0, 0, 0, 0, 0, 0] 0)) (·.reg 0) = some 1 := by decide
/-- A14 -/
theorem test_cmp_unsigned : after (exec (.cmp 0 1) (machine #v[0, 255, 0, 0, 0, 0, 0, 0] 0)) (·.fl) = some 0b100 := by decide
/-- A17 -/
theorem test_cmp_second_register : after (exec (.cmp 0 9) { State.reset with fl := 0b001 }) (fun t => (t.fl, t.status)) =
    some (0b001, .faulted { cause := .illegalRegisterIndex 9, pc := 0, opcode := 167 }) := by decide
/-- K1 -/
theorem test_push_from_zero : after (exec (.push 0) (machine #v[4, 0, 0, 0, 0, 0, 0, 0] 0)) (fun t => (t.sp, t.mem)) =
    some (255, [(255, 4)]) := by decide
/-- K3 -/
theorem test_push_r7 : after (exec (.push 7) (machine #v[0, 0, 0, 0, 0, 0, 0, 10] 0)) (fun t => (t.sp, t.readByte 9)) = some (9, 9) := by
  decide
/-- K5 -/
theorem test_pop_wraps : after (exec (.pop 1) (machineWith #v[0, 0, 0, 0, 0, 0, 0, 255] 0 255 4)) (fun t => (t.reg 1, t.sp)) =
    some (4, 0) := by decide
/-- K6 -/
theorem test_pop_r7 : after (exec (.pop 7) (machineWith #v[0, 0, 0, 0, 0, 0, 0, 20] 0 20 100)) (·.sp) = some 101 := by decide
/-- K8 -/
theorem test_call_r7 : after (exec (.call 7) (machine #v[0, 0, 0, 0, 0, 0, 0, 10] 3)) (fun t => (t.sp, t.readByte 9, t.pc)) =
    some (9, 5, 9) := by decide
/-- K9 -/
theorem test_call_at_254 : after (exec (.call 1) (machine #v[0, 50, 0, 0, 0, 0, 0, 100] 254)) (fun t => (t.sp, t.readByte 99, t.pc)) =
    some (99, 0, 50) := by decide
/-- K11 -/
theorem test_ret_wraps : after (exec .ret (machineWith #v[0, 0, 0, 0, 0, 0, 0, 255] 0 255 7)) (fun t => (t.pc, t.sp)) = some (7, 0) := by
  decide
/-- B1 -/
theorem test_jmp : after (exec (.jmp 3) (machine #v[0, 0, 0, 12, 0, 0, 0, 0] 0)) (·.pc) = some 12 := by decide
/-- B4 -/
theorem test_jeq_not_taken : after (exec (.jeq 2) { machine #v[0, 0, 40, 0, 0, 0, 0, 0] 20 with fl := 0b100 }) (·.pc) = some 22 := by decide
/-- B3 -/
theorem test_jeq_taken : after (exec (.jeq 2) { machine #v[0, 0, 40, 0, 0, 0, 0, 0] 20 with fl := 0b001 }) (·.pc) = some 40 := by decide
/-- B5 -/
theorem test_jne_not_taken : after (exec (.jne 3) { machine #v[0, 0, 0, 40, 0, 0, 0, 0] 20 with fl := 0b001 }) (·.pc) = some 22 := by decide
/-- B6 -/
theorem test_jne_taken : after (exec (.jne 3) { machine #v[0, 0, 0, 40, 0, 0, 0, 0] 20 with fl := 0b010 }) (·.pc) = some 40 := by decide

/-! ## The loop, the policies, the host operations -/

/-- L2, its three policies -/
theorem test_unassigned_at_255 :
    after (step (machineWith (Vector.replicate 8 0) 255 255 2)) (·.pc) = some 0 ∧
    after (stepUnder { addrPolicy := .clamp, overflowPolicy := .wrap } (machineWith (Vector.replicate 8 0) 255 255 2)) (·.pc) = some 255 ∧
    after (stepUnder { addrPolicy := .fault, overflowPolicy := .wrap } (machineWith (Vector.replicate 8 0) 255 255 2)) (·.status) =
      some (.faulted { cause := .addressOutOfRange 256, pc := 255, opcode := 2 }) := by decide
/-- D5, Wrap and Clamp -/
theorem test_ldi_across_the_top :
    after (step ((machine (Vector.replicate 8 0) 254).writeBytes 254 [130, 2, 77])) (fun t => (t.reg 2, t.pc)) = some (77, 1) ∧
    after (stepUnder { addrPolicy := .clamp, overflowPolicy := .wrap }
      ((machine (Vector.replicate 8 0) 254).writeBytes 254 [130, 2, 77])) (fun t => (t.reg 2, t.pc)) = some (2, 255) := by decide
/-- A2 under OVERFLOW_POLICY = Fault -/
theorem test_add_overflow_fault :
    after (execUnder { addrPolicy := .wrap, overflowPolicy := .fault } (.add 0 1) (machine #v[200, 100, 0, 0, 0, 0, 0, 0] 0)) (·.status) =
      some (.faulted { cause := .arithmeticOverflow 300, pc := 0, opcode := 160 }) := by decide
/-- A18 -/
theorem test_dormant_sub : alu decided .sub 3 5 = .ok (.value 254) ∧
    alu { addrPolicy := .wrap, overflowPolicy := .fault } .sub 3 5 = .error (.arithmeticOverflow (-2)) := by
  constructor <;> rfl
/-- L4 -/
theorem test_halted_step : after (step { State.reset with status := .halted }) id = some { State.reset with status := .halted } := by decide
/-- R207 -/
theorem test_load_refuses_a_wide_value : nextState? (load [1, 256]) = none ∧ nextState? (load [-1]) = none := by decide
/-- D1, through a placed word: the first step after reset runs it. -/
theorem test_withFetchWord : after (step (State.reset.withFetchWord 24 0x050082)) (fun t => (t.reg 0, t.pc)) = some (5, 3) := by decide
/-- The wired blocks on POP R7, the one double register write (R40; K6). -/
theorem test_datapath_pop_r7 :
    after (datapathStep decided ((machineWith #v[0, 0, 0, 0, 0, 0, 0, 20] 0 20 100).writeBytes 0 [70, 7])) (·.sp) = some 101 := by decide

/-! ## Witnesses: for each statement with hypotheses, a state and operands that meet them -/

/-- The register-byte hypotheses of the instruction statements, at the two bytes where they meet. -/
theorem witness_register_bytes : (7 : Byte).toNat < 8 ∧ 7 < (8 : Byte).toNat ∧ (6 : Byte).toNat < 7 ∧ (6 : Byte) ≠ 7 := by decide

/-- Flag words at each value the branch statements tell apart. -/
theorem witness_flag_bits : (0b001 : FlagWord).getLsbD 0 = true ∧ (0b110 : FlagWord).getLsbD 0 = false ∧
    (0b010 : FlagWord).getLsbD 0 = (0b100 : FlagWord).getLsbD 0 := by decide

/-- LoadEstablishesTheResetStateWithTheImage: an image at each end of each clause. -/
theorem witness_load_images :
    ((List.replicate 256 (255 : Int)).length ≤ 256 ∧ ∀ v ∈ List.replicate 256 (255 : Int), 0 ≤ v ∧ v ≤ 255) ∧
    (256 < (List.replicate 257 (0 : Int)).length ∧ ∀ v ∈ List.replicate 257 (0 : Int), 0 ≤ v ∧ v ≤ 255) ∧
    ([256].length ≤ 256 ∧ ∃ v ∈ [(256 : Int)], ¬ (0 ≤ v ∧ v ≤ 255)) ∧
    (256 < (List.replicate 257 (-1 : Int)).length ∧ ∃ v ∈ List.replicate 257 (-1 : Int), ¬ (0 ≤ v ∧ v ≤ 255)) := by
  have h : ∀ (n : Nat) (w : Int), 0 ≤ w → w ≤ 255 → ∀ v ∈ List.replicate n w, 0 ≤ v ∧ v ≤ 255 := fun n w h0 h1 v hv =>
    List.eq_of_mem_replicate hv ▸ ⟨h0, h1⟩
  refine ⟨⟨?_, h _ _ (by omega) (by omega)⟩, ⟨?_, h _ _ (by omega) (by omega)⟩, ⟨by decide, 256, by decide, by omega⟩,
    ⟨?_, -1, List.mem_replicate.2 ⟨by omega, rfl⟩, by omega⟩⟩ <;> rw [List.length_replicate] <;> omega

/-- DecodedBytesAreTheEncoding, DispatchAgreesWithTheDecoder. -/
theorem witness_decoded : decode [17, 9] = .ok (.ret, [9]) ∧ decodeWindow 17 9 9 = some .ret := by decide

/-- UnassignedOpcodesAreTheListedOnes: a byte at an end of a range. -/
theorem witness_unassigned : decodeWindow 168 1 1 = none ∧ decodeWindow 16 1 1 = none := by decide

/-- StepRunsTheDecodedInstruction: an instruction that lies across the top of memory. -/
theorem witness_step_runs : ((machine (Vector.replicate 8 0) 254).writeBytes 254 [130, 2, 77]).status = .running ∧
    ((machine (Vector.replicate 8 0) 254).writeBytes 254 [130, 2, 77]).fetch decided = some (.ldi 2 77) := by decide

/-- UnassignedOpcodeIsSkipped: at 255, and with no assigned opcode anywhere. -/
theorem witness_unassigned_step : (machine (Vector.replicate 8 0) 255).status = .running ∧
    classOf ((machine (Vector.replicate 8 0) 255).readByte 255) = none ∧ (machine (Vector.replicate 8 0) 255).pc = 255 := by decide
theorem witness_no_opcode_anywhere : State.reset.status = .running ∧ ∀ a : Byte, classOf (State.reset.readByte a) = none :=
  ⟨rfl, fun _ => rfl⟩

/-- TerminalStatesTakeNoStep, LoopStateTransitions: both terminal states. -/
theorem witness_terminal : { State.reset with status := .halted }.status = .halted ∧
    (takeFault (.illegalRegisterIndex 8) 130 State.reset).status ≠ .running := by decide

/-- A machine at reset with `PRN 200` at pc. -/
def illFormed : State := State.reset.writeBytes 0 [71, 200]

/-- FaultsArePreciseAndTerminal, FaultsAreThoseOfTheTable, PcMovesInOneOfFourWays: a step that faults. -/
theorem witness_fault : illFormed.status = .running ∧ after (stepUnder decided illFormed) (·.status) =
    some (.faulted { cause := .illegalRegisterIndex 200, pc := 0, opcode := 71 }) := by decide

/-- RegisterByteAboveSevenRaises: the second of two operands. -/
theorem witness_bad_register : (regBytes (.cmp 0 9)).find? (fun b => 7 < b.toNat) = some 9 := by decide

/-- StepKeepsTheInvariant, ResetAndLoadMeetTheInvariant: the reset state and an image that loads. -/
theorem witness_inv : State.reset.Inv := ⟨State.reset_mem_wf, .inl rfl, trivial⟩
theorem witness_step_from_inv : after (step State.reset) (·.pc) = some 1 := by decide
theorem witness_load : after (load [130, 0, 5]) (fun t => (t.readByte 0, t.readByte 2)) = some (130, 5) := by decide

/-- RunUnderFaultPoliciesIsTheRunUnderAny: a run that ends without a fault under the most cautious policies. -/
theorem witness_cautious_run :
    after (runUnder { addrPolicy := .fault, overflowPolicy := .fault } 2 (State.reset.writeBytes 0 [130, 0, 5, 1])) (·.status) =
      some .halted := by decide

/-- AddAndMulLaws, DormantAluOperations: operands at the ends of each clause. -/
theorem witness_alu_operands : (128 : Byte).toNat + (127 : Byte).toNat ≤ 255 ∧ 255 < (128 : Byte).toNat + (128 : Byte).toNat ∧
    (15 : Byte).toNat * (17 : Byte).toNat ≤ 255 ∧ 255 < (16 : Byte).toNat * (16 : Byte).toNat ∧
    (3 : Byte).toNat < (5 : Byte).toNat ∧ (5 : Byte).toNat ≤ (5 : Byte).toNat ∧ (1 : Byte) ≠ 0 := by decide

/-- The frames: each named instruction answers a next state that is no fault (the form with the largest register). -/
theorem witness_frames :
    after (exec (.ldi 7 1) State.reset) (·.status) = some .running ∧ after (exec (.add 7 7) State.reset) (·.status) = some .running ∧
    after (exec (.mul 7 7) State.reset) (·.status) = some .running ∧ after (exec (.pop 7) State.reset) (·.status) = some .running ∧
    after (exec .ret State.reset) (·.status) = some .running ∧ after (exec (.push 7) State.reset) (·.status) = some .running ∧
    after (exec (.call 7) State.reset) (·.status) = some .running ∧ spDec decided State.reset.sp = .ok 255 := by
  refine ⟨by decide, by decide, by decide, by decide, by decide, by decide, by decide, rfl⟩
theorem witness_frames_readers :
    after (exec (.prn 7) State.reset) (·.status) = some .running ∧ after (exec (.cmp 7 7) State.reset) (·.status) = some .running ∧
    after (exec (.jmp 7) State.reset) (·.status) = some .running ∧ after (exec (.jeq 7) State.reset) (·.status) = some .running ∧
    after (exec (.jne 7) State.reset) (·.status) = some .running ∧ after (exec .hlt State.reset) (·.status) = some .halted := by decide

/-- Rules of the whole machine: a run and a step that answer. -/
theorem witness_run : after (run 2 (State.reset.writeBytes 0 [71, 0, 1])) (fun t => (t.out, t.status)) = some ([0], .halted) := by decide

/-- StackLaws: SP = 0, where the first push wraps, a register below 7, and the state right after the CALL for the RET. -/
theorem witness_stack_laws : State.reset.mem.wf ∧ State.reset.sp = 0 ∧
    after (exec (.call 0) State.reset) (fun t => (t.sp, t.readByte t.sp)) = some (255, 2) := ⟨State.reset_mem_wf, by decide, by decide⟩

/-- A running machine with `PUSH R0` at 0 and SP = `sp`. -/
def pushing (sp : Byte) : State := (State.reset.setSp sp).writeBytes 0 [69, 0]

/-- FetchSeesEarlierStores: a PUSH onto the next opcode, a PUSH onto its own operand, and CALL R7. -/
theorem witness_self_modifying : (pushing 3).status = .running ∧ (pushing 3).fetch decided = some (.push 0) ∧
    (pushing 3).sp - 1 = (pushing 3).pc + 2 ∧ (pushing 2).fetch decided = some (.push 0) ∧ (pushing 2).sp - 1 = (pushing 2).pc + 1 ∧
    (State.reset.writeBytes 0 [80, 7]).fetch decided = some (.call 7) := by decide
theorem witness_self_modifying_wf : (pushing 3).mem.wf ∧ (pushing 2).mem.wf ∧ (State.reset.writeBytes 0 [80, 7]).mem.wf :=
  ⟨State.writeBytes_mem_wf _ _ State.reset_mem_wf, State.writeBytes_mem_wf _ _ State.reset_mem_wf,
    State.writeBytes_mem_wf _ _ State.reset_mem_wf⟩

end Sys2Proof.Tests
end

section
/-! SUPPORT. The scope (00_scope.md): the rules that the proofs of this family share. The low byte of an integer, the fetch under the
decided policies, and what the stack writers answer. -/
namespace Sys2Proof.Machine

/-! ## The low byte of an integer (R12) -/

/-- The low byte of an integer, as an integer, is its residue mod 256. -/
theorem toNat_ofInt_eq_emod (e : Int) : ((BitVec.ofInt 8 e).toNat : Int) = e % 256 := by
  simp only [BitVec.toNat_ofInt]
  omega

/-- The low byte of an integer in 0..255 is the integer. -/
theorem toNat_ofInt_of_mem {e : Int} (h : 0 ≤ e ∧ e ≤ 255) : ((BitVec.ofInt 8 e).toNat : Int) = e := by
  rw [toNat_ofInt_eq_emod]
  omega

/-! ## Fetching and stepping under the decided policies (R15, R26, R103) -/

/-- The instruction at pc is the one its byte and the two after it, addresses mod 256, decode to. -/
theorem State.fetch_decided (s : State) :
    s.fetch decided = decodeWindow (s.readByte s.pc) (s.readByte (s.pc + 1)) (s.readByte (s.pc + 2)) := by
  simp [State.fetch]

/-- From Running a step is the instruction fetched. -/
theorem step_of_fetch {s : State} {i : Instr} (hs : s.status = .running) (hi : s.fetch decided = some i) : step s = exec i s :=
  cycle_instr hs hi

/-- From Running, under any policies, an instruction whose pseudocode raises nothing is the step. -/
theorem stepUnder_of_body_ok {cfg : Config} {s t : State} {i : Instr} (hs : s.status = .running) (hi : s.fetch cfg = some i)
    (hb : bodyUnder cfg i s = .ok t) : stepUnder cfg s = .next t := by
  rw [stepUnder, cycle_instr hs hi]
  exact perform_ok hb

/-- From Running, under any policies, the skip of an unassigned opcode that raises nothing is the step (R105). -/
theorem stepUnder_of_skip_ok {cfg : Config} {s t : State} (hs : s.status = .running) (hi : s.fetch cfg = none)
    (hb : unassignedBody cfg s = .ok t) : stepUnder cfg s = .next t := by
  rw [stepUnder, cycle_unassigned hs hi]
  exact perform_ok hb

/-- From a terminal state no step changes anything, under any policies (R107). -/
theorem stepUnder_terminal {cfg : Config} {s : State} (hs : s.status ≠ .running) : stepUnder cfg s = .next s :=
  cycle_terminal hs

/-- A step always answers a next state, under any policies. -/
theorem stepUnder_total (cfg : Config) (s : State) : ∃ t, stepUnder cfg s = .next t := by
  by_cases hs : s.status = .running
  · cases hi : s.fetch cfg with
    | some i =>
      rw [stepUnder, cycle_instr hs hi]
      exact perform_total _ _ s
    | none =>
      rw [stepUnder, cycle_unassigned hs hi]
      exact perform_total _ _ s
  · exact ⟨s, stepUnder_terminal hs⟩

/-! ## PUSH and CALL under the decided policies (R150, R152) -/

/-- The state with SP decremented and `v` in the cell it then points to: the store of PUSH and of CALL. -/
def State.pushed (v : Byte) (s : State) : State := (s.setSp (s.sp - 1)).writeByte (s.sp - 1) v

@[simp] theorem State.pushed_pc (s : State) (v : Byte) : (s.pushed v).pc = s.pc := rfl

/-- The cell a push stores to reads as the byte stored. -/
theorem State.readByte_pushed_self {s : State} (hm : s.mem.wf) (v : Byte) : (s.pushed v).readByte (s.sp - 1) = v :=
  State.readByte_writeByte_self (s := s.setSp (s.sp - 1)) hm (s.sp - 1) v

/-- A push leaves every other cell as it was. -/
theorem State.readByte_pushed_ne (s : State) (v : Byte) {a : Byte} (h : a ≠ s.sp - 1) : (s.pushed v).readByte a = s.readByte a :=
  State.readByte_writeByte_ne (s.setSp (s.sp - 1)) v h

/-- The register an operand byte names, read after SP was written. -/
theorem State.reg_setSp_eq_regAt (s : State) {r : Byte} (hr : r.toNat < 8) (v : Byte) :
    (s.setSp v).reg ⟨r.toNat, hr⟩ = regAt (setAt s.x 7 v) r := by
  rw [reg_eq_regAt, setSp_eq_setAt]

/-- PUSH stores the register, read after the SP write (R14), and goes past its two bytes. -/
theorem exec_push {s : State} {r : Byte} (hr : r.toNat < 8) :
    exec (.push r) s = .next ((s.pushed (regAt (setAt s.x 7 (s.sp - 1)) r)).setPc (s.pc + 2)) := by
  have hbody : pushBody decided r s = .ok ((s.pushed (regAt (setAt s.x 7 (s.sp - 1)) r)).setPc (s.pc + 2)) := by
    rw [← State.reg_setSp_eq_regAt s hr]
    simp [pushBody, State.pushed, regIndex_of_lt hr, bind, Except.bind]
  exact perform_ok hbody

/-- CALL stores the address of the byte after it and goes to the register, read after the SP write (R14). -/
theorem exec_call {s : State} {r : Byte} (hr : r.toNat < 8) :
    exec (.call r) s = .next ((s.pushed (s.pc + 2)).setPc (regAt (setAt s.x 7 (s.sp - 1)) r)) := by
  have hbody : callBody decided r s = .ok ((s.pushed (s.pc + 2)).setPc (regAt (setAt s.x 7 (s.sp - 1)) r)) := by
    rw [← State.reg_setSp_eq_regAt s hr]
    simp [callBody, State.pushed, regIndex_of_lt hr, bind, Except.bind, pure, Except.pure]
  exact perform_ok hbody

/-- PUSH of a register other than SP stores that register as it was. -/
theorem exec_push_below_sp {s : State} {r : Byte} (hr : r.toNat < 7) :
    exec (.push r) s = .next ((s.pushed (regAt s.x r)).setPc (s.pc + 2)) := by
  have hne : r ≠ 7 := fun h => absurd hr (by simp [h])
  rw [exec_push (by omega), regAt_setAt_ne s.x (s.sp - 1) hne]

/-- CALL R7 goes to the cell it has just pushed to. -/
theorem exec_call_sp (s : State) : exec (.call 7) s = .next ((s.pushed (s.pc + 2)).setPc (s.sp - 1)) := by
  rw [exec_call (by decide), regAt_setAt_self s.x (by decide)]

end Sys2Proof.Machine
end

section
/-! PROOF. The scope (00_scope.md R12, R13): the normalisers under each policy, and precise faults. -/
namespace Sys2Proof.Machine

/-- Settles O17: the low byte of an integer is its residue mod 256, and the integer itself inside 0..255. -/
theorem normalisersFollowTheirPolicies : Obligations.NormalisersFollowTheirPolicies := by
  refine ⟨?addrWrap, ?addrClamp, ?addrFault, ?valueWrap, ?valueFault, ?register, rfl⟩
  case addrWrap => exact fun _ e => ⟨_, rfl, toNat_ofInt_eq_emod e⟩
  case addrClamp => exact fun _ e => ⟨_, rfl, toNat_ofInt_of_mem (by omega)⟩
  case addrFault => exact fun _ e => ⟨fun he => ⟨_, if_pos he, toNat_ofInt_of_mem he⟩, fun he => if_neg he⟩
  case valueWrap => exact fun _ e => ⟨_, rfl, toNat_ofInt_eq_emod e⟩
  case valueFault => exact fun _ e => ⟨fun he => ⟨_, if_pos he, toNat_ofInt_of_mem he⟩, fun he => if_neg he⟩
  case register => exact fun b => ⟨fun hb => ⟨_, regIndex_of_lt (Nat.lt_succ_of_le hb), rfl⟩, regIndex_of_ge⟩

/-! ## The status an instruction leaves (R33, R100) -/

theorem State.advance_status {cfg : Config} {len : Nat} {s t : State} (h : s.advance cfg len = .ok t) : t.status = s.status := by
  obtain ⟨pc, -, rfl⟩ := State.advance_ok h
  rfl

theorem State.decSp_status {cfg : Config} {s t : State} (h : s.decSp cfg = .ok t) : t.status = s.status := by
  obtain ⟨sp, -, rfl⟩ := State.decSp_ok h
  rfl

theorem State.incSp_status {cfg : Config} {s t : State} (h : s.incSp cfg = .ok t) : t.status = s.status := by
  obtain ⟨sp, -, rfl⟩ := State.incSp_ok h
  rfl

@[simp] theorem State.writeBack_status (s : State) (i : RegIndex) (o : AluOut) : (s.writeBack i o).status = s.status := by
  cases o <;> rfl

theorem aluBody_status {cfg : Config} {op : AluOp} {ra rb : Byte} {s t : State} (h : aluBody cfg op ra rb s = .ok t) :
    t.status = s.status := by
  obtain ⟨ia, -, h⟩ := bind_ok h
  obtain ⟨ib, -, h⟩ := bind_ok h
  obtain ⟨o, -, h⟩ := bind_ok h
  rw [State.advance_status h, State.writeBack_status]

theorem branchBody_status {cfg : Config} {taken : Bool} {r : Byte} {s t : State} (h : branchBody cfg taken r s = .ok t) :
    t.status = s.status := by
  obtain ⟨rt, -, h⟩ := bind_ok h
  cases taken with
  | true => cases h; rfl
  | false => exact State.advance_status h

/-- An instruction that raises nothing keeps the status, or is HLT and halts: only a raise leads to Faulted (R100, R106). -/
theorem bodyUnder_status {cfg : Config} {i : Instr} {s t : State} (h : bodyUnder cfg i s = .ok t) :
    t.status = s.status ∨ t.status = .halted := by
  cases i with
  | hlt => cases h; exact .inr rfl
  | ldi r imm =>
    obtain ⟨rd, -, h⟩ := bind_ok h
    obtain ⟨v, -, h⟩ := bind_ok h
    exact .inl ((State.advance_status h).trans (s.setReg_status rd v))
  | prn r =>
    obtain ⟨rd, -, h⟩ := bind_ok h
    exact .inl ((State.advance_status h).trans (s.emit_status (s.reg rd)))
  | mul ra rb => exact .inl (aluBody_status h)
  | add ra rb => exact .inl (aluBody_status h)
  | cmp ra rb => exact .inl (aluBody_status h)
  | push r =>
    obtain ⟨rs, -, h⟩ := bind_ok h
    obtain ⟨s1, hs1, h⟩ := bind_ok h
    have hstore := s1.writeByte_status s1.sp (s1.reg rs)
    exact .inl ((State.advance_status h).trans (hstore.trans (State.decSp_status hs1)))
  | pop r =>
    obtain ⟨rd, -, h⟩ := bind_ok h
    obtain ⟨s1, hs1, h⟩ := bind_ok h
    have hload := s.setReg_status rd (s.readByte s.sp)
    exact .inl ((State.advance_status h).trans ((State.incSp_status hs1).trans hload))
  | call r =>
    obtain ⟨rt, -, h⟩ := bind_ok h
    obtain ⟨ret, -, h⟩ := bind_ok h
    obtain ⟨s1, hs1, h⟩ := bind_ok h
    cases h
    have hkept : s1.status = s.status := State.decSp_status hs1
    exact .inl hkept
  | ret =>
    have hpop : (s.setPc (s.readByte s.sp)).incSp cfg = .ok t := h
    exact .inl ((State.incSp_status hpop).trans (s.setPc_status _))
  | jmp r =>
    obtain ⟨rt, -, h⟩ := bind_ok h
    cases h
    exact .inl rfl
  | jeq r => exact .inl (branchBody_status h)
  | jne r => exact .inl (branchBody_status h)

/-- A step from Running that ends Faulted took a fault at the state before it, and the record names that state (R13, R200). -/
theorem stepUnder_faulted {cfg : Config} {s t : State} {info : FaultInfo} (hs : s.status = .running)
    (h : stepUnder cfg s = .next t) (ht : t.status = .faulted info) :
    ∃ c, info = { cause := c, pc := s.pc, opcode := s.readByte s.pc } ∧ t = takeFault c (s.readByte s.pc) s := by
  rcases stepUnder_cases h with ⟨hn, -⟩ | ⟨-, i, -, hb | ⟨c, -, rfl⟩⟩ | ⟨-, -, hb | ⟨c, -, rfl⟩⟩
  · exact absurd hs hn
  · rcases bodyUnder_status hb with hk | hk
    · simp [hs, ht] at hk
    · simp [ht] at hk
  · exact ⟨c, (Status.faulted.inj ht).symm, rfl⟩
  · simp [State.advance_status hb, hs] at ht
  · exact ⟨c, (Status.faulted.inj ht).symm, rfl⟩

/-- Settles O18: the step took a fault, and that changes the status alone. -/
theorem faultsArePreciseAndTerminal : Obligations.FaultsArePreciseAndTerminal := by
  intro cfg s t info hs h ht
  have hterm : stepUnder cfg t = .next t := stepUnder_terminal (by simp [ht])
  obtain ⟨c, rfl, rfl⟩ := stepUnder_faulted hs h ht
  exact ⟨rfl, rfl, rfl, hterm⟩

end Sys2Proof.Machine
end

section
/-! PROOF. The scope (00_scope.md R8; D2, D3): what the most cautious policies let through, every policy does. -/
namespace Sys2Proof.Machine

/-- The most cautious policies: both Fault (U1, U2). -/
def cautious : Config := { addrPolicy := .fault, overflowPolicy := .fault }

/-- Whatever `x` answers, `y` answers; where `x` raises, `y` may do anything. -/
def AnswersWithin {α : Type} (x y : Except FaultCause α) : Prop := ∀ a, x = .ok a → y = .ok a

namespace AnswersWithin

theorem refl {α : Type} (x : Except FaultCause α) : AnswersWithin x x := fun _ h => h

theorem bind {α β : Type} {x y : Except FaultCause α} {f g : α → Except FaultCause β} (hx : AnswersWithin x y)
    (hf : ∀ a, AnswersWithin (f a) (g a)) : AnswersWithin (x >>= f) (y >>= g) := by
  intro b h
  obtain ⟨a, ha, hb⟩ := bind_ok h
  rw [hx a ha]
  exact hf a b hb

theorem map {α β : Type} {x y : Except FaultCause α} (hx : AnswersWithin x y) (f : α → β) : AnswersWithin (x.map f) (y.map f) := by
  intro b h
  cases x with
  | error c => cases h
  | ok a => rw [hx a rfl]; exact h

end AnswersWithin

section
variable (cfg : Config)

/-! ## The operations -/

theorem normAddr_within (e : Int) : AnswersWithin (normAddr cautious e) (normAddr cfg e) := by
  intro a h
  by_cases he : 0 ≤ e ∧ e ≤ 255
  · rw [normAddr_in_range cfg he.1 he.2, ← normAddr_in_range cautious he.1 he.2, h]
  · have hraise : normAddr cautious e = .error (.addressOutOfRange e) := if_neg he
    cases hraise.symm.trans h

theorem normValue_within (e : Int) : AnswersWithin (normValue cautious e) (normValue cfg e) := by
  intro v h
  by_cases he : 0 ≤ e ∧ e ≤ 255
  · rw [normValue_of_check (by simp [Check.raises, he]), ← h, normValue_of_check (by simp [Check.raises, he])]
  · have hraise : normValue cautious e = .error (.arithmeticOverflow e) := if_neg he
    cases hraise.symm.trans h

theorem State.pcPlus_within (k : Nat) (s : State) : AnswersWithin (s.pcPlus cautious k) (s.pcPlus cfg k) :=
  normAddr_within cfg _

theorem State.advance_within (len : Nat) (s : State) : AnswersWithin (s.advance cautious len) (s.advance cfg len) :=
  (s.pcPlus_within cfg len).bind fun _ => .refl _

theorem State.decSp_within (s : State) : AnswersWithin (s.decSp cautious) (s.decSp cfg) :=
  (normAddr_within cfg _).bind fun _ => .refl _

theorem State.incSp_within (s : State) : AnswersWithin (s.incSp cautious) (s.incSp cfg) :=
  (normAddr_within cfg _).bind fun _ => .refl _

theorem regOperand_within (k : Nat) (b : Byte) (s : State) : AnswersWithin (regOperand cautious k b s) (regOperand cfg k b s) :=
  (s.pcPlus_within cfg k).bind fun _ => .refl _

theorem immOperand_within (k : Nat) (b : Byte) (s : State) : AnswersWithin (immOperand cautious k b s) (immOperand cfg k b s) :=
  (s.pcPlus_within cfg k).bind fun _ => .refl _

theorem alu_within (op : AluOp) (a b : Byte) : AnswersWithin (alu cautious op a b) (alu cfg op a b) := by
  cases op with
  | add => exact (normValue_within cfg _).map _
  | sub => exact (normValue_within cfg _).map _
  | mul => exact (normValue_within cfg _).map _
  | div => exact .refl _
  | cmp => exact .refl _
  | other n => exact .refl _

/-! ## The instructions -/

theorem aluBody_within (op : AluOp) (ra rb : Byte) (s : State) : AnswersWithin (aluBody cautious op ra rb s) (aluBody cfg op ra rb s) :=
  (regOperand_within cfg 1 ra s).bind fun _ => (regOperand_within cfg 2 rb s).bind fun _ =>
    (alu_within cfg op _ _).bind fun _ => State.advance_within cfg 3 _

theorem branchBody_within (taken : Bool) (r : Byte) (s : State) :
    AnswersWithin (branchBody cautious taken r s) (branchBody cfg taken r s) := by
  refine (regOperand_within cfg 1 r s).bind fun rt => ?_
  cases taken with
  | true => exact .refl (.ok (s.setPc (s.reg rt)))
  | false => exact s.advance_within cfg 2

/-- What an instruction does under the most cautious policies, it does under any. -/
theorem bodyUnder_within (i : Instr) (s : State) : AnswersWithin (bodyUnder cautious i s) (bodyUnder cfg i s) :=
  match i with
  | .ldi r imm =>
    (regOperand_within cfg 1 r s).bind fun _ => (immOperand_within cfg 2 imm s).bind fun _ => State.advance_within cfg 3 _
  | .prn r     => (regOperand_within cfg 1 r s).bind fun _ => State.advance_within cfg 2 _
  | .hlt       => .refl _
  | .mul ra rb => aluBody_within cfg .mul ra rb s
  | .add ra rb => aluBody_within cfg .add ra rb s
  | .push r    =>
    (regOperand_within cfg 1 r s).bind fun _ => (s.decSp_within cfg).bind fun _ => State.advance_within cfg 2 _
  | .pop r     =>
    (regOperand_within cfg 1 r s).bind fun _ => (State.incSp_within cfg _).bind fun _ => State.advance_within cfg 2 _
  | .call r    =>
    (regOperand_within cfg 1 r s).bind fun _ => (s.pcPlus_within cfg 2).bind fun _ => (s.decSp_within cfg).bind fun _ => .refl _
  | .ret       => State.incSp_within cfg _
  | .cmp ra rb => aluBody_within cfg .cmp ra rb s
  | .jmp r     => (regOperand_within cfg 1 r s).bind fun _ => .refl _
  | .jeq r     => branchBody_within cfg s.flagE r s
  | .jne r     => branchBody_within cfg (!s.flagE) r s

end

/-! ## The fetch

Under Fault an operand byte beyond address 255 stands as 0, and under another policy it does not, so a fetch can decode another
instruction there. Where the instruction raises nothing, every operand byte it has was read. -/

/-- The addresses of the operand bytes of `i` at `s` do not raise. -/
def State.OperandsInReach (cfg : Config) (i : Instr) (s : State) : Prop :=
  (1 < i.length → ∃ a, s.pcPlus cfg 1 = .ok a) ∧ (2 < i.length → ∃ a, s.pcPlus cfg 2 = .ok a)

/-- A sequence of operations answers only where its first one does. -/
theorem head_answers_of_bind_ok {α β : Type} {x : Except FaultCause α} {f : α → Except FaultCause β} {b : β}
    (h : (x >>= f) = .ok b) : ∃ a, x = .ok a := by
  obtain ⟨a, ha, -⟩ := bind_ok h
  exact ⟨a, ha⟩

theorem regOperand_reach {cfg : Config} {k : Nat} {b : Byte} {s : State} {i : RegIndex} (h : regOperand cfg k b s = .ok i) :
    ∃ a, s.pcPlus cfg k = .ok a := head_answers_of_bind_ok h

theorem immOperand_reach {cfg : Config} {k : Nat} {b v : Byte} {s : State} (h : immOperand cfg k b s = .ok v) :
    ∃ a, s.pcPlus cfg k = .ok a := head_answers_of_bind_ok h

/-- An instruction of one byte has no operand to read. -/
theorem reach_of_no_operand {cfg : Config} {i : Instr} (hi : i.length = 1) (s : State) : s.OperandsInReach cfg i :=
  ⟨fun h1 => by omega, fun h2 => by omega⟩

/-- The pseudocode of an instruction of two bytes reads its register operand first. -/
theorem reach_of_regOperand {cfg : Config} {i : Instr} (hi : i.length = 2) {b : Byte} {s t : State}
    {f : RegIndex → Except FaultCause State} (h : (regOperand cfg 1 b s >>= f) = .ok t) : s.OperandsInReach cfg i := by
  obtain ⟨r, hr⟩ := head_answers_of_bind_ok h
  exact ⟨fun _ => regOperand_reach hr, fun h2 => by omega⟩

theorem aluBody_reach {cfg : Config} {i : Instr} {op : AluOp} {ra rb : Byte} {s t : State} (h : aluBody cfg op ra rb s = .ok t) :
    s.OperandsInReach cfg i := by
  obtain ⟨ia, ha, h⟩ := bind_ok h
  obtain ⟨ib, hb⟩ := head_answers_of_bind_ok h
  exact ⟨fun _ => regOperand_reach ha, fun _ => regOperand_reach hb⟩

/-- An instruction that raises nothing has read every operand byte it has (R210). -/
theorem bodyUnder_reach {cfg : Config} {i : Instr} {s t : State} (h : bodyUnder cfg i s = .ok t) : s.OperandsInReach cfg i := by
  cases i with
  | ldi r imm =>
    obtain ⟨rd, hr, h⟩ := bind_ok h
    obtain ⟨v, hv⟩ := head_answers_of_bind_ok h
    exact ⟨fun _ => regOperand_reach hr, fun _ => immOperand_reach hv⟩
  | mul ra rb => exact aluBody_reach h
  | add ra rb => exact aluBody_reach h
  | cmp ra rb => exact aluBody_reach h
  | hlt => exact reach_of_no_operand rfl s
  | ret => exact reach_of_no_operand rfl s
  | prn r => exact reach_of_regOperand rfl h
  | push r => exact reach_of_regOperand rfl h
  | pop r => exact reach_of_regOperand rfl h
  | call r => exact reach_of_regOperand rfl h
  | jmp r => exact reach_of_regOperand rfl h
  | jeq r => exact reach_of_regOperand rfl h
  | jne r => exact reach_of_regOperand rfl h

/-- An operand byte that Fault reads is the one every policy reads. -/
theorem State.fetchByte_of_reach (cfg : Config) {k : Nat} {s : State} (h : ∃ a, s.pcPlus cautious k = .ok a) :
    s.fetchByte cfg k = s.fetchByte cautious k := by
  obtain ⟨a, ha⟩ := h
  simp [State.fetchByte, ha, s.pcPlus_within cfg k a ha]

/-- Decoding looks only at the operand bytes the instruction has (R70, R71). -/
theorem decodeWindow_congr {opc b1 b2 c1 c2 : Byte} {i : Instr} (h : decodeWindow opc b1 b2 = some i)
    (h1 : 1 < i.length → c1 = b1) (h2 : 2 < i.length → c2 = b2) : decodeWindow opc c1 c2 = some i := by
  have hc := decodeWindow_class h
  unfold decodeWindow at h ⊢
  rw [hc] at h ⊢
  cases i <;> simp_all [Instr.opClass, Instr.length, OpClass.format, Format.length, Format.operands]

/-- Where the operand bytes are in reach under Fault, every policy fetches the same instruction. -/
theorem State.fetch_of_reach (cfg : Config) {s : State} {i : Instr} (hi : s.fetch cautious = some i)
    (hr : s.OperandsInReach cautious i) : s.fetch cfg = some i :=
  decodeWindow_congr hi (fun h1 => State.fetchByte_of_reach cfg (hr.1 h1)) (fun h2 => State.fetchByte_of_reach cfg (hr.2 h2))

/-- Whether the opcode is unassigned does not depend on the policies (R76). -/
theorem State.fetch_none (cfg cfg' : Config) {s : State} (h : s.fetch cfg = none) : s.fetch cfg' = none :=
  decodeWindow_none.2 (decodeWindow_none.1 h)

/-! ## The step and the run -/

theorem takeFault_not_safe (c : FaultCause) (opc : Byte) (s : State) : ¬ (takeFault c opc s).Safe :=
  fun h => h ⟨_, rfl⟩

/-- A step that is safe under the most cautious policies is the step under any. -/
theorem stepUnder_of_cautious (cfg : Config) {s t : State} (h : stepUnder cautious s = .next t) (ht : t.Safe) :
    stepUnder cfg s = .next t := by
  rcases stepUnder_cases h with ⟨hs, rfl⟩ | ⟨hs, i, hi, hb | ⟨c, -, rfl⟩⟩ | ⟨hs, hi, hb | ⟨c, -, rfl⟩⟩
  · exact stepUnder_terminal hs
  · exact stepUnder_of_body_ok hs (State.fetch_of_reach cfg hi (bodyUnder_reach hb)) (bodyUnder_within cfg i s t hb)
  · exact absurd ht (takeFault_not_safe _ _ _)
  · exact stepUnder_of_skip_ok hs (State.fetch_none cautious cfg hi) (s.advance_within cfg 1 t hb)
  · exact absurd ht (takeFault_not_safe _ _ _)

/-- A run of no steps stays where it is. -/
theorem runWith_zero {f : State → Host.Outcome State Fault Refusal} (s : State) : runWith f 0 s = .next s := rfl

/-- A run that ends safe went through safe states: a fault is terminal (R107). -/
theorem safe_of_runWith_safe {f : State → Host.Outcome State Fault Refusal} {n : Nat} {s t : State} (h : runWith f n s = .next t)
    (ht : t.Safe) : s.Safe := by
  rintro ⟨info, hs⟩
  rw [runWith_terminal n (by simp [hs])] at h
  cases h
  exact ht ⟨info, hs⟩

/-- Settles O21, by induction on the number of steps: each step of a safe run ends safe, so it is the step under any policies. -/
theorem runUnderFaultPoliciesIsTheRunUnderAny : Obligations.RunUnderFaultPoliciesIsTheRunUnderAny := by
  intro cfg n
  induction n with
  | zero => exact fun s t h _ => (runWith_zero s).trans ((runWith_zero s).symm.trans h)
  | succ n ih =>
    intro s t h ht
    by_cases hs : s.status = .running
    · obtain ⟨u, hu⟩ := stepUnder_total cautious s
      have hrun : runWith (stepUnder cautious) n u = .next t := (runWith_succ n hs hu).symm.trans h
      have hstep : stepUnder cfg s = .next u := stepUnder_of_cautious cfg hu (safe_of_runWith_safe hrun ht)
      exact (runWith_succ n hs hstep).trans (ih u t hrun ht)
    · exact (runWith_terminal _ hs).trans ((runWith_terminal _ hs).symm.trans h)

end Sys2Proof.Machine
end

section
/-! PROOF. The scope (00_scope.md R15; 20_memory.md R60; 40_execution_loop.md R103): what a fetch sees. -/
namespace Sys2Proof.Machine

/-- Settles O9: the fetch under the decided policies reads the bytes at pc, pc + 1 and pc + 2. -/
theorem stepRunsTheDecodedInstruction : Obligations.StepRunsTheDecodedInstruction :=
  fun s _ hs hi => step_of_fetch hs (s.fetch_decided.trans hi)

/-- A byte pushed onto the next instruction's opcode is what the next step decodes. -/
theorem fetch_after_push_onto_next_opcode {s : State} {r : Byte} (hm : s.mem.wf) (hs : s.status = .running)
    (hi : s.fetch decided = some (.push r)) (hr : r.toNat < 7) (hsp : s.sp - 1 = s.pc + 2) :
    ∃ t, step s = .next t ∧ t.fetch decided = decodeWindow (regAt s.x r) (s.readByte (s.pc + 3)) (s.readByte (s.pc + 4)) := by
  refine ⟨_, (step_of_fetch hs hi).trans (exec_push_below_sp hr), ?_⟩
  have h0 : (s.pushed (regAt s.x r)).readByte (s.pc + 2) = regAt s.x r := hsp ▸ State.readByte_pushed_self hm _
  have h1 : (s.pushed (regAt s.x r)).readByte (s.pc + 2 + 1) = s.readByte (s.pc + 3) := by
    rw [show s.pc + 2 + 1 = s.pc + 3 by bv_omega]
    exact State.readByte_pushed_ne s _ (by bv_omega)
  have h2 : (s.pushed (regAt s.x r)).readByte (s.pc + 2 + 2) = s.readByte (s.pc + 4) := by
    rw [show s.pc + 2 + 2 = s.pc + 4 by bv_omega]
    exact State.readByte_pushed_ne s _ (by bv_omega)
  simp only [State.fetch_decided, State.setPc_pc, State.readByte_setPc, h0, h1, h2]

/-- After CALL R7 the next step decodes the return address, in the cell it was pushed to, as an opcode. -/
theorem fetch_after_call_sp {s : State} (hm : s.mem.wf) (hs : s.status = .running) (hi : s.fetch decided = some (.call 7)) :
    ∃ t, step s = .next t ∧ t.fetch decided = decodeWindow (s.pc + 2) (s.readByte s.sp) (s.readByte (s.sp + 1)) := by
  refine ⟨_, (step_of_fetch hs hi).trans (exec_call_sp s), ?_⟩
  have h0 : (s.pushed (s.pc + 2)).readByte (s.sp - 1) = s.pc + 2 := State.readByte_pushed_self hm _
  have h1 : (s.pushed (s.pc + 2)).readByte (s.sp - 1 + 1) = s.readByte s.sp := by
    rw [show s.sp - 1 + 1 = s.sp by bv_omega]
    exact State.readByte_pushed_ne s _ (by bv_omega)
  have h2 : (s.pushed (s.pc + 2)).readByte (s.sp - 1 + 2) = s.readByte (s.sp + 1) := by
    rw [show s.sp - 1 + 2 = s.sp + 1 by bv_omega]
    exact State.readByte_pushed_ne s _ (by bv_omega)
  simp only [State.fetch_decided, State.setPc_pc, State.readByte_setPc, h0, h1, h2]

/-- A PUSH onto its own operand byte pushes the register that byte named when it was fetched. -/
theorem push_onto_own_operand {s : State} {r : Byte} (hm : s.mem.wf) (hs : s.status = .running)
    (hi : s.fetch decided = some (.push r)) (hr : r.toNat < 7) (hsp : s.sp - 1 = s.pc + 1) :
    ∃ t, step s = .next t ∧ t.readByte (s.pc + 1) = regAt s.x r :=
  ⟨_, (step_of_fetch hs hi).trans (exec_push_below_sp hr), hsp ▸ State.readByte_pushed_self hm _⟩

/-- Settles O49: the store of a PUSH or CALL is in memory at the next fetch, and its own fetch came before it. -/
theorem fetchSeesEarlierStores : Obligations.FetchSeesEarlierStores :=
  ⟨fun _ _ => fetch_after_push_onto_next_opcode, fun _ => fetch_after_call_sp, fun _ _ => push_onto_own_operand⟩

end Sys2Proof.Machine
end

section
/-! SUPPORT. The state (10_state.md R20 to R34): what every instruction and every step does to it under the decided policies, said
once. The proofs of this family read the fields of `effect` and split a step by `StepTo`. -/
namespace Sys2Proof.Machine

/-! ## The effect of an instruction -/

/-- The first of the register operand bytes `bs` that names no register (R202, R210). -/
def firstBadReg (bs : List Byte) : Option Byte := bs.find? fun b => 7 < b.toNat

/-- The state `t`, unless one of the register operand bytes `bs` names no register: then the first such byte is raised. -/
def checkedRegs (bs : List Byte) (t : State) : Except FaultCause State :=
  (firstBadReg bs).elim (.ok t) fun b => .error (.illegalRegisterIndex b)

/-- What an instruction does under the decided policies once its register operands are checked (R120, R121, R106, R135 to R137, R150 to
R153, R170 to R172). A line that reads SP or a register after a write reads the registers written. -/
def effect (i : Instr) (s : State) : State :=
  match i with
  | .ldi r imm => { s with x := setAt s.x r imm, pc := s.pc + 3 }
  | .prn r     => { s with out := s.out ++ [regAt s.x r], pc := s.pc + 2 }
  | .hlt       => { s with status := .halted }
  | .mul ra rb => { s with x := setAt s.x ra (regAt s.x ra * regAt s.x rb), pc := s.pc + 3 }
  | .add ra rb => { s with x := setAt s.x ra (regAt s.x ra + regAt s.x rb), pc := s.pc + 3 }
  | .push r    => { s with
      x := setAt s.x 7 (s.sp - 1), mem := s.mem.write (s.sp - 1) (regAt (setAt s.x 7 (s.sp - 1)) r), pc := s.pc + 2 }
  | .pop r     =>
    let x := setAt s.x r (s.readByte s.sp)
    { s with x := setAt x 7 (regAt x 7 + 1), pc := s.pc + 2 }
  | .call r    => { s with
      x := setAt s.x 7 (s.sp - 1), mem := s.mem.write (s.sp - 1) (s.pc + 2), pc := regAt (setAt s.x 7 (s.sp - 1)) r }
  | .ret       => { s with x := setAt s.x 7 (s.sp + 1), pc := s.readByte s.sp }
  | .cmp ra rb => { s with fl := compareFlags (regAt s.x ra) (regAt s.x rb), pc := s.pc + 3 }
  | .jmp r     => { s with pc := regAt s.x r }
  | .jeq r     => { s with pc := if s.flagE then regAt s.x r else s.pc + 2 }
  | .jne r     => { s with pc := if s.flagE then s.pc + 2 else regAt s.x r }

/-- A sequence goes on with what its first part answers. -/
@[simp] theorem ok_bind {α β : Type} (a : α) (f : α → Except FaultCause β) : (Except.ok a >>= f) = f a := rfl

/-- A sequence raises what its first part raises (R210). -/
@[simp] theorem error_bind {α β : Type} (c : FaultCause) (f : α → Except FaultCause β) :
    ((Except.error c : Except FaultCause α) >>= f) = .error c := rfl

@[simp] theorem State.writeBack_pc (s : State) (i : RegIndex) (o : AluOut) : (s.writeBack i o).pc = s.pc := by cases o <;> rfl

@[simp] theorem checkedRegs_nil (t : State) : checkedRegs [] t = .ok t := rfl

/-- A register check in front is one more byte to check (R210). -/
theorem regIndex_bind_eq_checkedRegs (r : Byte) {bs : List Byte} {f : RegIndex → Except FaultCause State} {t : State}
    (hf : ∀ h : r.toNat < 8, f ⟨r.toNat, h⟩ = checkedRegs bs t) : (regIndex r >>= f) = checkedRegs (r :: bs) t := by
  by_cases hr : r.toNat < 8
  · rw [regIndex_of_lt hr, ok_bind]
    simpa [checkedRegs, firstBadReg, show ¬ 7 < r.toNat by omega] using hf hr
  · have h7 : 7 < r.toNat := by omega
    rw [regIndex_of_ge h7]
    simp [checkedRegs, firstBadReg, h7]

/-- ADD, MUL and CMP check both registers, then write the ALU's answer and go past their three bytes. -/
theorem aluBody_decided {op : AluOp} {ra rb : Byte} {s : State} {o : AluOut} {t : State}
    (ho : alu decided op (regAt s.x ra) (regAt s.x rb) = .ok o)
    (ht : ∀ h : ra.toNat < 8, (s.writeBack ⟨ra.toNat, h⟩ o).setPc (s.pc + 3) = t) :
    aluBody decided op ra rb s = checkedRegs [ra, rb] t := by
  simp only [aluBody, regOperand_decided]
  refine regIndex_bind_eq_checkedRegs ra fun ha => regIndex_bind_eq_checkedRegs rb fun hb => ?_
  simp [reg_eq_regAt, ho, ← ht ha]

/-- A branch checks its register whether or not it is taken (R202). -/
theorem branchBody_decided (taken : Bool) (r : Byte) (s : State) :
    branchBody decided taken r s = checkedRegs [r] (s.setPc (if taken then regAt s.x r else s.pc + 2)) := by
  simp only [branchBody, regOperand_decided]
  refine regIndex_bind_eq_checkedRegs r fun hr => ?_
  cases taken <;> simp [reg_eq_regAt, pure, Except.pure]

/-- `A(a + b)` is addition of bytes under Wrap. -/
theorem ofInt_add_toNat (a b : Byte) : BitVec.ofInt 8 ((a.toNat : Int) + b.toNat) = a + b := by
  rw [ofInt_toNat_add, BitVec.ofNat_toNat, BitVec.setWidth_eq]

/-- `V(a * b)` is multiplication of bytes under Wrap. -/
theorem ofInt_mul_toNat (a b : Byte) : BitVec.ofInt 8 ((a.toNat : Int) * b.toNat) = a * b := by
  rw [← Nat.cast_mul, BitVec.ofInt_natCast, BitVec.ofNat_mul, BitVec.ofNat_toNat, BitVec.ofNat_toNat, BitVec.setWidth_eq,
    BitVec.setWidth_eq]

/-- Under the decided policies every instruction checks its register operands in byte order and then has its effect. -/
theorem bodyUnder_decided (i : Instr) (s : State) : bodyUnder decided i s = checkedRegs (regBytes i) (effect i s) := by
  cases i with
  | hlt => rfl
  | ret => simp [bodyUnder, retBody, regBytes, effect, setSp_eq_setAt, sp_eq_regAt, State.setPc]
  | mul ra rb =>
    refine aluBody_decided (o := .value (regAt s.x ra * regAt s.x rb)) ?_ fun h => ?_
    · simp [alu, Except.map, ofInt_mul_toNat]
    · simp [State.writeBack, effect, setReg_eq_setAt, State.setPc]
  | add ra rb =>
    refine aluBody_decided (o := .value (regAt s.x ra + regAt s.x rb)) ?_ fun h => ?_
    · simp [alu, Except.map, ofInt_add_toNat]
    · simp [State.writeBack, effect, setReg_eq_setAt, State.setPc]
  | cmp ra rb => exact aluBody_decided rfl fun _ => rfl
  | jeq r => exact branchBody_decided s.flagE r s
  | jne r =>
    refine (branchBody_decided (!s.flagE) r s).trans ?_
    cases h : s.flagE <;> simp [regBytes, effect, h, State.setPc]
  | ldi r imm =>
    simp only [bodyUnder, ldiBody, regOperand_decided]
    exact regIndex_bind_eq_checkedRegs r fun hr => by
      simp [effect, setReg_eq_setAt, State.setPc]
  | prn r =>
    simp only [bodyUnder, prnBody, regOperand_decided]
    exact regIndex_bind_eq_checkedRegs r fun hr => by
      simp [effect, reg_eq_regAt, State.setPc, State.emit]
  | push r =>
    simp only [bodyUnder, pushBody, regOperand_decided]
    exact regIndex_bind_eq_checkedRegs r fun hr => by
      simp [effect, reg_eq_regAt, setSp_eq_setAt, sp_eq_regAt, regAt_setAt_self, State.setPc, State.writeByte]
  | pop r =>
    simp only [bodyUnder, popBody, regOperand_decided]
    exact regIndex_bind_eq_checkedRegs r fun hr => by
      simp [effect, setReg_eq_setAt, setSp_eq_setAt, sp_eq_regAt, State.setPc]
  | call r =>
    simp only [bodyUnder, callBody, regOperand_decided]
    exact regIndex_bind_eq_checkedRegs r fun hr => by
      simp [effect, reg_eq_regAt, setSp_eq_setAt, sp_eq_regAt, regAt_setAt_self, State.setPc, State.writeByte, pure, Except.pure]
  | jmp r =>
    simp only [bodyUnder, jmpBody, regOperand_decided]
    exact regIndex_bind_eq_checkedRegs r fun hr => by
      simp [effect, reg_eq_regAt, State.setPc, pure, Except.pure]

/-! ## The outcome of an instruction -/

/-- The byte found is in the list and above 7. -/
theorem firstBadReg_eq_some {bs : List Byte} {b : Byte} (h : firstBadReg bs = some b) : b ∈ bs ∧ 7 < b.toNat :=
  ⟨List.mem_of_find?_eq_some h, by simpa using List.find?_some h⟩

/-- Where none is found, every byte of the list names a register. -/
theorem lt_of_firstBadReg_eq_none {bs : List Byte} (h : firstBadReg bs = none) {b : Byte} (hb : b ∈ bs) : b.toNat < 8 := by
  have hle := List.find?_eq_none.1 h b hb
  simp only [decide_eq_true_eq] at hle
  omega

/-- With its register operands in 0..7 an instruction has its effect. -/
theorem exec_of_regs {i : Instr} (h : firstBadReg (regBytes i) = none) (s : State) : exec i s = .next (effect i s) := by
  rw [exec_eq_perform]
  exact perform_ok (by rw [bodyUnder_decided, checkedRegs, h]; rfl)

/-- With a register operand above 7 an instruction raises IllegalRegisterIndex of the first such byte (R202, R210). -/
theorem exec_of_badReg {i : Instr} {b : Byte} (h : firstBadReg (regBytes i) = some b) (s : State) :
    exec i s = .next (takeFault (.illegalRegisterIndex b) (opcodeOf i) s) := by
  rw [exec_eq_perform]
  exact perform_error (by rw [bodyUnder_decided, checkedRegs, h]; rfl)

/-- Everything an instruction can do under the decided policies. -/
theorem exec_cases {i : Instr} {s t : State} (h : exec i s = .next t) :
    (firstBadReg (regBytes i) = none ∧ t = effect i s) ∨
    ∃ b, firstBadReg (regBytes i) = some b ∧ t = takeFault (.illegalRegisterIndex b) (opcodeOf i) s := by
  cases hb : firstBadReg (regBytes i) with
  | none => exact .inl ⟨rfl, (Host.Outcome.next.inj ((exec_of_regs hb s).symm.trans h)).symm⟩
  | some b => exact .inr ⟨b, rfl, (Host.Outcome.next.inj ((exec_of_badReg hb s).symm.trans h)).symm⟩

/-! ## The outcome of a step -/

/-- Everything a step can do under the decided policies (R100, R103, R105, R107, R202). -/
inductive StepTo (s : State) : State → Prop where
  /-- a terminal state is left as it is -/
  | stays (hs : s.status ≠ .running) : StepTo s s
  /-- the instruction at pc has its effect -/
  | runs (i : Instr) (hs : s.status = .running) (hi : s.fetch decided = some i) (hr : firstBadReg (regBytes i) = none) :
      StepTo s (effect i s)
  /-- the instruction at pc has a register operand above 7 -/
  | faults (i : Instr) (b : Byte) (hs : s.status = .running) (hi : s.fetch decided = some i)
      (hr : firstBadReg (regBytes i) = some b) : StepTo s (takeFault (.illegalRegisterIndex b) (opcodeOf i) s)
  /-- the byte at pc is unassigned and is skipped -/
  | skips (hs : s.status = .running) (hi : s.fetch decided = none) : StepTo s (s.setPc (s.pc + 1))

/-- From Running, an unassigned opcode is skipped (R105). -/
theorem step_of_fetch_none {s : State} (hs : s.status = .running) (hi : s.fetch decided = none) :
    step s = .next (s.setPc (s.pc + 1)) := by
  rw [step, cycle_unassigned hs hi]
  exact perform_ok (s.advance_decided 1)

theorem StepTo.step_eq {s t : State} (h : StepTo s t) : step s = .next t := by
  cases h with
  | stays hs => exact cycle_terminal hs
  | runs i hs hi hr => exact (step_of_fetch hs hi).trans (exec_of_regs hr s)
  | faults i b hs hi hr => exact (step_of_fetch hs hi).trans (exec_of_badReg hr s)
  | skips hs hi => exact step_of_fetch_none hs hi

/-- Some case of `StepTo` holds of every state. -/
theorem exists_stepTo (s : State) : ∃ t, StepTo s t := by
  by_cases hs : s.status = .running
  · cases hi : s.fetch decided with
    | none => exact ⟨_, .skips hs hi⟩
    | some i =>
      cases hr : firstBadReg (regBytes i) with
      | none => exact ⟨_, .runs i hs hi hr⟩
      | some b => exact ⟨_, .faults i b hs hi hr⟩
  · exact ⟨s, .stays hs⟩

/-- A step goes exactly where a case of `StepTo` says. -/
theorem step_iff {s t : State} : step s = .next t ↔ StepTo s t := by
  refine ⟨fun h => ?_, StepTo.step_eq⟩
  obtain ⟨u, hu⟩ := exists_stepTo s
  cases hu.step_eq.symm.trans h
  exact hu

/-! ## Which fields an effect writes -/

/-- A comparison sets exactly one of E, G and L (R132). -/
theorem compareFlags_oneHot (a b : Byte) : compareFlags a b = 0b001 ∨ compareFlags a b = 0b010 ∨ compareFlags a b = 0b100 := by
  unfold compareFlags
  split
  · exact .inr (.inr rfl)
  · split
    · exact .inr (.inl rfl)
    · exact .inl rfl

theorem effect_fl {i : Instr} (hi : ∀ ra rb, i ≠ .cmp ra rb) (s : State) : (effect i s).fl = s.fl := by
  cases i with
  | cmp ra rb => exact absurd rfl (hi ra rb)
  | _ => rfl

theorem effect_out {i : Instr} (hi : ∀ r, i ≠ .prn r) (s : State) : (effect i s).out = s.out := by
  cases i with
  | prn r => exact absurd rfl (hi r)
  | _ => rfl

theorem effect_status {i : Instr} (hi : i ≠ .hlt) (s : State) : (effect i s).status = s.status := by
  cases i with
  | hlt => exact absurd rfl hi
  | _ => rfl

theorem effect_mem {i : Instr} (hpush : ∀ r, i ≠ .push r) (hcall : ∀ r, i ≠ .call r) (s : State) : (effect i s).mem = s.mem := by
  cases i with
  | push r => exact absurd rfl (hpush r)
  | call r => exact absurd rfl (hcall r)
  | _ => rfl

/-- PUSH and CALL store one byte, at the decremented SP (R150, R152). -/
theorem effect_mem_of_stack_writer {i : Instr} {r : Byte} (hi : i = .push r ∨ i = .call r) (s : State) :
    ∃ v, (effect i s).mem = s.mem.write (s.sp - 1) v := by
  rcases hi with rfl | rfl
  · exact ⟨_, rfl⟩
  · exact ⟨_, rfl⟩

/-- No effect reaches a cell but the one below SP. -/
theorem readByte_effect_ne (i : Instr) (s : State) {a : Byte} (ha : a ≠ s.sp - 1) : (effect i s).readByte a = s.readByte a := by
  cases i with
  | push r => exact Memory.read_write_ne s.mem _ ha
  | call r => exact Memory.read_write_ne s.mem _ ha
  | _ => rfl

/-- The registers an instruction may write, as operand bytes name them; SP is 7 (R22, R23). -/
def destRegs : Instr → List Byte
  | .ldi r _ | .mul r _ | .add r _ => [r]
  | .pop r => [r, 7]
  | .push _ | .call _ | .ret => [7]
  | .prn _ | .hlt | .cmp _ _ | .jmp _ | .jeq _ | .jne _ => []

/-- Setting the register an operand byte names leaves every other. -/
theorem getElem_setAt_ne (x : Vector Byte 8) {b : Byte} (v : Byte) {j : RegIndex} (h : j.val ≠ b.toNat) :
    (setAt x b v)[j.val] = x[j.val] := by
  unfold setAt
  split
  · exact Vector.getElem_set_ne _ _ h.symm
  · rfl

theorem reg_effect {i : Instr} {j : RegIndex} (h : ∀ b ∈ destRegs i, j.val ≠ b.toNat) (s : State) :
    (effect i s).reg j = s.reg j := by
  cases i with
  | ldi r imm => exact getElem_setAt_ne s.x _ (h r (by simp [destRegs]))
  | mul ra rb => exact getElem_setAt_ne s.x _ (h ra (by simp [destRegs]))
  | add ra rb => exact getElem_setAt_ne s.x _ (h ra (by simp [destRegs]))
  | pop r =>
    have hsp := getElem_setAt_ne (setAt s.x r (s.readByte s.sp)) (regAt (setAt s.x r (s.readByte s.sp)) 7 + 1)
      (h 7 (by simp [destRegs]))
    exact hsp.trans (getElem_setAt_ne s.x _ (h r (by simp [destRegs])))
  | push r => exact getElem_setAt_ne s.x _ (h 7 (by simp [destRegs]))
  | call r => exact getElem_setAt_ne s.x _ (h 7 (by simp [destRegs]))
  | ret => exact getElem_setAt_ne s.x _ (h 7 (by simp [destRegs]))
  | _ => rfl

/-! ## Which fields an instruction writes, whether or not it faults -/

section
variable {i : Instr} {s t : State} (h : exec i s = .next t)
include h

theorem exec_fl (hi : ∀ ra rb, i ≠ .cmp ra rb) : t.fl = s.fl := by
  obtain ⟨-, rfl⟩ | ⟨b, -, rfl⟩ := exec_cases h
  · exact effect_fl hi s
  · rfl

theorem exec_out (hi : ∀ r, i ≠ .prn r) : t.out = s.out := by
  obtain ⟨-, rfl⟩ | ⟨b, -, rfl⟩ := exec_cases h
  · exact effect_out hi s
  · rfl

theorem exec_status (hi : i ≠ .hlt) : t.status = s.status ∨ ∃ info, t.status = .faulted info := by
  obtain ⟨-, rfl⟩ | ⟨b, -, rfl⟩ := exec_cases h
  · exact .inl (effect_status hi s)
  · exact .inr ⟨_, rfl⟩

theorem exec_readByte (hpush : ∀ r, i ≠ .push r) (hcall : ∀ r, i ≠ .call r) (a : Byte) : t.readByte a = s.readByte a := by
  obtain ⟨-, rfl⟩ | ⟨b, -, rfl⟩ := exec_cases h
  · exact congrArg (fun m => m.read a) (effect_mem hpush hcall s)
  · rfl

theorem exec_readByte_ne {a : Byte} (ha : a ≠ s.sp - 1) : t.readByte a = s.readByte a := by
  obtain ⟨-, rfl⟩ | ⟨b, -, rfl⟩ := exec_cases h
  · exact readByte_effect_ne i s ha
  · rfl

theorem exec_reg {j : RegIndex} (hj : ∀ b ∈ destRegs i, j.val ≠ b.toNat) : t.reg j = s.reg j := by
  obtain ⟨-, rfl⟩ | ⟨b, -, rfl⟩ := exec_cases h
  · exact reg_effect hj s
  · rfl

end

end Sys2Proof.Machine
end

section
/-! PROOF. The invariant (10_state.md R30; 40_execution_loop.md R106; 60_exceptions.md R201, R209): each case of a step keeps it. -/
namespace Sys2Proof.Machine

theorem effect_mem_wf {s : State} (hm : s.mem.wf) (i : Instr) : (effect i s).mem.wf := by
  cases i with
  | push r => exact Memory.write_wf hm _ _
  | call r => exact Memory.write_wf hm _ _
  | _ => exact hm

theorem effect_flLegal {s : State} (hf : FlLegal s.fl) (i : Instr) : FlLegal (effect i s).fl := by
  cases i with
  | cmp ra rb => exact .inr (compareFlags_oneHot _ _)
  | _ => exact hf

theorem statusLegal_of_running {s : State} (hs : s.status = .running) : s.StatusLegal := by
  simp only [State.StatusLegal, hs]

/-- A byte decoded as an instruction is that instruction's opcode. -/
theorem State.opcode_of_fetch {cfg : Config} {s : State} {i : Instr} (hi : s.fetch cfg = some i) : s.readByte s.pc = opcodeOf i :=
  decodeWindow_opcode hi

/-- An instruction keeps the machine running, or is HLT and leaves pc at its own byte (R106). -/
theorem effect_statusLegal {s : State} {i : Instr} (hs : s.status = .running) (hi : s.fetch decided = some i) :
    (effect i s).StatusLegal := by
  by_cases hh : i = .hlt
  · subst hh
    exact State.opcode_of_fetch hi
  · exact statusLegal_of_running ((effect_status hh s).trans hs)

/-- An instruction with a register operand is of one of the classes the table of R201 lists. -/
theorem opClass_mem_regOperandClasses {i : Instr} {b : Byte} (hb : b ∈ regBytes i) : i.opClass ∈ regOperandClasses := by
  cases i with
  | hlt => exact absurd hb List.not_mem_nil
  | ret => exact absurd hb List.not_mem_nil
  | _ => simp [Instr.opClass, regOperandClasses]

/-- The record of a fault names the opcode at pc, and the register byte above 7 (R201, R209). -/
theorem takeFault_statusLegal {s : State} {i : Instr} {b : Byte} (hi : s.fetch decided = some i)
    (hr : firstBadReg (regBytes i) = some b) : (takeFault (.illegalRegisterIndex b) (opcodeOf i) s).StatusLegal := by
  obtain ⟨hmem, hgt⟩ := firstBadReg_eq_some hr
  exact ⟨rfl, (State.opcode_of_fetch hi).symm, ⟨i.opClass, opClass_mem_regOperandClasses hmem, rfl⟩, b, rfl, hgt⟩

/-- Settles O15: each of the four cases of a step keeps memory, flags and status legal. -/
theorem stepKeepsTheInvariant : Obligations.StepKeepsTheInvariant := by
  rintro s t ⟨hm, hf, hst⟩ h
  cases step_iff.1 h with
  | stays hs => exact ⟨hm, hf, hst⟩
  | runs i hs hi hr => exact ⟨effect_mem_wf hm i, effect_flLegal hf i, effect_statusLegal hs hi⟩
  | faults i b hs hi hr => exact ⟨hm, hf, takeFault_statusLegal hi hr⟩
  | skips hs hi => exact ⟨hm, hf, statusLegal_of_running hs⟩

end Sys2Proof.Machine
end

section
/-! PROOF. The reset state and `load` (10_state.md R25, R36; 40_execution_loop.md R101; 60_exceptions.md R207). -/
namespace Sys2Proof.Machine

theorem State.reset_reg (i : RegIndex) : State.reset.reg i = 0 := by
  simp [State.reg, State.reset]

/-- Settles O1. -/
theorem resetStateHoldsTheResetTable : Obligations.ResetStateHoldsTheResetTable :=
  ⟨State.reset_reg, State.reset_reg spIndex, rfl, rfl, rfl, rfl, fun _ => rfl⟩

/-- Placing bytes writes memory alone. -/
theorem State.writeBytes_eq (bs : List Byte) (a : Byte) (s : State) : s.writeBytes a bs = { s with mem := (s.writeBytes a bs).mem } := by
  induction bs generalizing a s with
  | nil => rfl
  | cons v vs ih => exact ih (a + 1) (s.writeByte a v)

/-- At most 256 bytes placed from `a` read back in order, and every other cell as before (R36). -/
theorem State.readByte_writeBytes (bs : List Byte) (a b : Byte) {s : State} (hm : s.mem.wf) (hlen : bs.length ≤ 256) :
    (s.writeBytes a bs).readByte b = bs.getD (b - a).toNat (s.readByte b) := by
  induction bs generalizing a s with
  | nil => rfl
  | cons v vs ih =>
    rw [List.length_cons] at hlen
    have hwf : (s.writeByte a v).mem.wf := Memory.write_wf hm a v
    have htail := ih (a + 1) hwf (by omega)
    by_cases hb : b = a
    · subst hb
      have hlast : (b - (b + 1)).toNat = 255 := by bv_omega
      rw [hlast, List.getD_eq_default _ _ (by omega), State.readByte_writeByte_self hm] at htail
      simpa [State.writeBytes] using htail
    · have hnext : (b - a).toNat = (b - (a + 1)).toNat + 1 := by bv_omega
      rw [State.readByte_writeByte_ne s v hb] at htail
      rw [hnext, List.getD_cons_succ]
      exact htail

/-- The value `load` looks for is one outside 0..255 (R36). -/
theorem not_isImageByte_iff (v : Int) : (!isImageByte v) = true ↔ ¬ (0 ≤ v ∧ v ≤ 255) := by
  rw [isImageByte, Bool.not_eq_true', decide_eq_false_iff_not]

theorem load_of_image {image : List Int} (hlen : image.length ≤ 256) (hv : ∀ v ∈ image, 0 ≤ v ∧ v ≤ 255) :
    load image = .next (State.reset.writeBytes 0 (image.map (BitVec.ofInt 8))) := by
  have hfind : image.find? (fun v => !isImageByte v) = none :=
    List.find?_eq_none.2 fun v h hbad => (not_isImageByte_iff v).1 hbad (hv v h)
  rw [load, if_neg (by omega), hfind]

theorem load_of_too_long {image : List Int} (hlen : 256 < image.length) : load image = .refused (.imageTooLong image.length) :=
  if_pos hlen

/-- Of an image that is not too long, the first value out of range is named (log entry 7). -/
theorem load_of_value_out_of_range {image : List Int} (hlen : image.length ≤ 256) (hv : ∃ v ∈ image, ¬ (0 ≤ v ∧ v ≤ 255)) :
    ∃ v ∈ image, ¬ (0 ≤ v ∧ v ≤ 255) ∧ load image = .refused (.imageByteOutOfRange v) := by
  obtain ⟨w, hw, hbad⟩ := hv
  have hfound : (image.find? fun v => !isImageByte v).isSome :=
    List.find?_isSome.2 ⟨w, hw, (not_isImageByte_iff w).2 hbad⟩
  obtain ⟨v, hfind⟩ := Option.isSome_iff_exists.1 hfound
  have hv : (!isImageByte v) = true := List.find?_some (p := fun v => !isImageByte v) hfind
  refine ⟨v, List.mem_of_find?_eq_some hfind, (not_isImageByte_iff v).1 hv, ?_⟩
  rw [load, if_neg (by omega), hfind]

/-- Every cell of a loaded machine reads as the image's value at its address, or 0 beyond the image. -/
theorem readByte_loaded {image : List Int} (hlen : image.length ≤ 256) (hv : ∀ v ∈ image, 0 ≤ v ∧ v ≤ 255) (a : Byte) :
    (((State.reset.writeBytes 0 (image.map (BitVec.ofInt 8))).readByte a).toNat : Int) = image.getD a.toNat 0 := by
  have hread := State.readByte_writeBytes (image.map (BitVec.ofInt 8)) 0 a State.reset_mem_wf (by simpa using hlen)
  have hzero : State.reset.readByte a = BitVec.ofInt 8 0 := rfl
  have hsub : a - 0 = a := BitVec.sub_zero a
  rw [hread, hsub, hzero, List.getD_map]
  apply toNat_ofInt_of_mem
  by_cases ha : a.toNat < image.length
  · rw [List.getD_eq_getElem _ _ ha]
    exact hv _ (List.getElem_mem ha)
  · rw [List.getD_eq_default _ _ (by omega)]
    omega

/-- Settles O2: the loader places the image into the reset state, and refuses by the length before the values. -/
theorem loadEstablishesTheResetStateWithTheImage : Obligations.LoadEstablishesTheResetStateWithTheImage := by
  intro image
  refine ⟨fun hlen hv => ⟨_, load_of_image hlen hv, ?_⟩, fun hlen _ => load_of_too_long hlen, load_of_value_out_of_range,
    fun hlen _ => ⟨_, load_of_too_long hlen⟩⟩
  have hwf := State.writeBytes_mem_wf (image.map (BitVec.ofInt 8)) 0 State.reset_mem_wf
  refine ⟨?_, ?_, ?_, ?_, ?_, hwf, readByte_loaded hlen hv⟩
  all_goals rw [State.writeBytes_eq]
  · rfl
  · rfl
  · rfl
  · exact State.reset_reg
  · rfl

end Sys2Proof.Machine
end

section
/-! PROOF. The frames (10_state.md R23, R30, R32, R34, R44, R50): what each group of instructions leaves unchanged. -/
namespace Sys2Proof.Machine

/-- The register that operand byte 7 names is SP's alone. -/
theorem val_ne_of_ne_seven {j : RegIndex} (h : j ≠ 7) : j.val ≠ (7 : Byte).toNat := fun e => h (Fin.ext e)

/-- Settles O38: byte 1 names the one destination of each. -/
theorem frameOfRegisterWriters : Obligations.FrameOfRegisterWriters := by
  intro r b i s t hi h
  rcases hi with rfl | rfl | rfl <;>
    exact ⟨fun j hj => exec_reg h (by simpa [destRegs] using hj), exec_fl h nofun, exec_out h nofun, exec_readByte h nofun nofun,
      exec_status h nofun⟩

/-- RET has no register operand, so it never faults. -/
theorem exec_ret (s : State) : exec .ret s = .next (effect .ret s) := exec_of_regs rfl s

/-- Settles O39. -/
theorem frameOfStackReaders : Obligations.FrameOfStackReaders := by
  refine ⟨fun r s t h => ⟨fun j hj hsp => ?_, exec_fl h nofun, exec_out h nofun, exec_readByte h nofun nofun, exec_status h nofun⟩,
    fun s t h => ⟨fun j hsp => ?_, exec_fl h nofun, exec_out h nofun, ?_, exec_readByte h nofun nofun⟩⟩
  · exact exec_reg h (by simpa [destRegs] using ⟨hj, val_ne_of_ne_seven hsp⟩)
  · exact exec_reg h (by simpa [destRegs] using val_ne_of_ne_seven hsp)
  · cases (exec_ret s).symm.trans h
    rfl

/-- Settles O40: SP is the one destination of each, and the cell below it the one written. -/
theorem frameOfStackWriters : Obligations.FrameOfStackWriters := by
  intro r i s t hi h
  have hcell : ∀ a : Byte, spDec decided s.sp = .ok a → ∀ b : Byte, b ≠ a → t.readByte b = s.readByte b := by
    intro a ha b hb
    rw [spDec_decided] at ha
    cases ha
    exact exec_readByte_ne h hb
  rcases hi with rfl | rfl <;>
    exact ⟨fun j hj => exec_reg h (by simpa [destRegs] using val_ne_of_ne_seven hj), exec_fl h nofun, exec_out h nofun,
      exec_status h nofun, hcell⟩

/-- HLT leaves pc (R106). -/
theorem exec_hlt_pc {s t : State} (h : exec .hlt s = .next t) : t.pc = s.pc := by
  cases (exec_of_regs (i := .hlt) rfl s).symm.trans h
  rfl

/-- Settles O41: none of the six has a destination register or stores. -/
theorem frameOfReadersOnly : Obligations.FrameOfReadersOnly := by
  intro r b i s t hi h
  have hdest : destRegs i = [] := by rcases hi with rfl | rfl | rfl | rfl | rfl | rfl <;> rfl
  have hpush : ∀ q, i ≠ .push q := by rintro q rfl; simp at hi
  have hcall : ∀ q, i ≠ .call q := by rintro q rfl; simp at hi
  have hcmp : i ≠ .cmp r b → ∀ ra rb, i ≠ .cmp ra rb := by rintro hne ra rb rfl; simp_all
  have hprn : i ≠ .prn r → ∀ q, i ≠ .prn q := by rintro hne q rfl; simp_all
  exact ⟨fun j => exec_reg h (by simp [hdest]), exec_readByte h hpush hcall, fun hne => exec_fl h (hcmp hne),
    fun hne => exec_out h (hprn hne), exec_status h, fun hh => exec_hlt_pc (hh ▸ h)⟩

end Sys2Proof.Machine
end

section
/-! SUPPORT. Runs (40_execution_loop.md R102): what every step relates, a run relates. -/
namespace Sys2Proof.Machine

/-- A step always answers a next state. -/
theorem step_total (s : State) : ∃ t, step s = .next t := by
  obtain ⟨t, ht⟩ := exists_stepTo s
  exact ⟨t, ht.step_eq⟩

/-- A relation that every step simulates and that keeps the status is simulated by runs of every length. -/
theorem run_simulates {R : State → State → Prop} (hstatus : ∀ {s s'}, R s s' → s'.status = s.status)
    (hstep : ∀ {s s' t}, R s s' → step s = .next t → ∃ t', step s' = .next t' ∧ R t t') (n : Nat) {s s' t : State} (hR : R s s')
    (h : run n s = .next t) : ∃ t', run n s' = .next t' ∧ R t t' := by
  induction n generalizing s s' with
  | zero =>
    cases h
    exact ⟨s', rfl, hR⟩
  | succ n ih =>
    by_cases hs : s.status = .running
    · obtain ⟨u, hu⟩ := step_total s
      obtain ⟨u', hu', hRu⟩ := hstep hR hu
      obtain ⟨t', ht', hRt⟩ := ih hRu ((runWith_succ n hs hu).symm.trans h)
      exact ⟨t', (runWith_succ n ((hstatus hR).trans hs) hu').trans ht', hRt⟩
    · cases (runWith_terminal (n + 1) hs).symm.trans h
      exact ⟨s', runWith_terminal (n + 1) (hstatus hR ▸ hs), hR⟩

/-- A reflexive and transitive relation between the states before and after a step holds between the ends of every run. -/
theorem run_relates {R : State → State → Prop} (hrefl : ∀ s, R s s) (htrans : ∀ {s t u}, R s t → R t u → R s u)
    (hstep : ∀ {s t}, step s = .next t → R s t) (n : Nat) {s t : State} (h : run n s = .next t) : R s t := by
  induction n generalizing s with
  | zero =>
    cases h
    exact hrefl _
  | succ n ih =>
    by_cases hs : s.status = .running
    · obtain ⟨u, hu⟩ := step_total s
      exact htrans (hstep hu) (ih ((runWith_succ n hs hu).symm.trans h))
    · cases (runWith_terminal (n + 1) hs).symm.trans h
      exact hrefl _

end Sys2Proof.Machine
end

section
/-! PROOF. The flags register (10_state.md R30): CMP alone writes it, and FL.E alone is read. -/
namespace Sys2Proof.Machine

/-- The two states differ in FL.G and FL.L at most. -/
def SameButGreaterLess (s s' : State) : Prop := ∃ f : FlagWord, s' = { s with fl := f } ∧ f.getLsbD 0 = s.fl.getLsbD 0

/-- The effect of an instruction depends on no flag but FL.E: CMP replaces all three, the others keep them. -/
theorem effect_sameButGreaterLess {s s' : State} (h : SameButGreaterLess s s') (i : Instr) :
    SameButGreaterLess (effect i s) (effect i s') := by
  obtain ⟨f, rfl, hf⟩ := h
  have hE : ({ s with fl := f } : State).flagE = s.flagE := hf
  cases i with
  | cmp ra rb => exact ⟨_, rfl, rfl⟩
  | jeq r => exact ⟨f, by simp only [effect, hE], hf⟩
  | jne r => exact ⟨f, by simp only [effect, hE], hf⟩
  | _ => exact ⟨f, rfl, hf⟩

theorem exec_sameButGreaterLess {i : Instr} {s s' t : State} (hR : SameButGreaterLess s s') (h : exec i s = .next t) :
    ∃ t', exec i s' = .next t' ∧ SameButGreaterLess t t' := by
  obtain ⟨hr, rfl⟩ | ⟨b, hr, rfl⟩ := exec_cases h
  · exact ⟨_, exec_of_regs hr s', effect_sameButGreaterLess hR i⟩
  · obtain ⟨f, rfl, hf⟩ := hR
    exact ⟨_, exec_of_badReg hr _, f, rfl, hf⟩

theorem step_sameButGreaterLess {s s' t : State} (hR : SameButGreaterLess s s') (h : step s = .next t) :
    ∃ t', step s' = .next t' ∧ SameButGreaterLess t t' := by
  obtain ⟨f, rfl, hf⟩ := id hR
  cases step_iff.1 h with
  | stays hs => exact ⟨_, step_iff.2 (.stays hs), hR⟩
  | runs i hs hi hr => exact ⟨_, step_iff.2 (.runs i hs hi hr), effect_sameButGreaterLess hR i⟩
  | faults i b hs hi hr => exact ⟨_, step_iff.2 (.faults i b hs hi hr), f, rfl, hf⟩
  | skips hs hi => exact ⟨_, step_iff.2 (.skips hs hi), f, rfl, hf⟩

/-- CMP of two registers has its effect. -/
theorem exec_cmp {ra rb : Byte} (ha : ra.toNat < 8) (hb : rb.toNat < 8) (s : State) :
    exec (.cmp ra rb) s = .next (effect (.cmp ra rb) s) :=
  exec_of_regs (by simp [regBytes, firstBadReg, show ra.toNat ≤ 7 by omega, show rb.toNat ≤ 7 by omega]) s

/-- Settles O42. -/
theorem onlyCmpWritesTheFlags : Obligations.OnlyCmpWritesTheFlags := by
  refine ⟨fun i s t h hi => exec_fl h hi,
    fun ra rb s ha hb => ⟨_, exec_cmp ha hb s, compareFlags_oneHot _ _, fun f => exec_cmp ha hb { s with fl := f }⟩,
    fun i s t f hf h => ?_⟩
  obtain ⟨_, ht, g, rfl, -⟩ := exec_sameButGreaterLess ⟨f, rfl, hf⟩ h
  exact ⟨g, ht⟩

/-- Settles O43: each step keeps two states equal but for FL.G and FL.L, so a run does. -/
theorem greaterAndLessFlagsAreNeverRead : Obligations.GreaterAndLessFlagsAreNeverRead := by
  intro n s t f hf h
  have hstatus : ∀ {s s' : State}, SameButGreaterLess s s' → s'.status = s.status := by
    rintro s _ ⟨f, rfl, -⟩
    rfl
  obtain ⟨_, ht, g, rfl, hg⟩ := run_simulates hstatus step_sameButGreaterLess n ⟨f, rfl, hf⟩ h
  exact ⟨g, ht, hg⟩

end Sys2Proof.Machine
end

section
/-! PROOF. The output (10_state.md R32, R34): PRN alone appends to it, and nothing reads it. -/
namespace Sys2Proof.Machine

/-- A step leaves the output, or is a PRN and appends the register it names. -/
theorem step_out {s t : State} (h : step s = .next t) : t.out = s.out ∨
    ∃ r : Byte, r.toNat < 8 ∧ s.fetch decided = some (.prn r) ∧ t.out = s.out ++ [regAt s.x r] := by
  cases step_iff.1 h with
  | stays hs => exact .inl rfl
  | runs i hs hi hr =>
    by_cases hprn : ∃ r, i = .prn r
    · obtain ⟨r, rfl⟩ := hprn
      exact .inr ⟨r, lt_of_firstBadReg_eq_none hr (by simp [regBytes]), hi, rfl⟩
    · exact .inl (effect_out (fun r e => hprn ⟨r, e⟩) s)
  | faults i b hs hi hr => exact .inl rfl
  | skips hs hi => exact .inl rfl

/-- A step leaves the bytes emitted before it at the front of the output. -/
theorem step_extends_out {s t : State} (h : step s = .next t) : s.out <+: t.out := by
  obtain hout | ⟨r, -, -, hout⟩ := step_out h
  · exact ⟨[], (List.append_nil _).trans hout.symm⟩
  · exact ⟨_, hout.symm⟩

/-- Settles O44: each step extends the output, so a run does. -/
theorem onlyPrnAppendsToTheOutput : Obligations.OnlyPrnAppendsToTheOutput := by
  refine ⟨rfl, fun s t => step_out, fun n s t h => ?_⟩
  obtain ⟨emitted, he⟩ : s.out <+: t.out :=
    run_relates (R := fun s t => s.out <+: t.out) (fun s => ⟨[], List.append_nil s.out⟩) List.IsPrefix.trans step_extends_out n h
  exact ⟨emitted, he.symm⟩

/-- The state with the output `o` before its own. -/
def State.withEarlierOutput (o : List Byte) (s : State) : State := { s with out := o ++ s.out }

/-- An effect does not depend on what was emitted before. -/
theorem effect_withEarlierOutput (i : Instr) (o : List Byte) (s : State) :
    effect i (s.withEarlierOutput o) = (effect i s).withEarlierOutput o := by
  cases i with
  | prn r => simp [effect, State.withEarlierOutput]
  | _ => rfl

theorem step_withEarlierOutput (o : List Byte) {s t : State} (h : step s = .next t) :
    step (s.withEarlierOutput o) = .next (t.withEarlierOutput o) := by
  rw [step_iff]
  cases step_iff.1 h with
  | stays hs => exact .stays hs
  | runs i hs hi hr => exact effect_withEarlierOutput i o s ▸ .runs i hs hi hr
  | faults i b hs hi hr => exact .faults i b hs hi hr
  | skips hs hi => exact .skips hs hi

/-- Settles O45: each step commutes with putting more output before, so a run does. -/
theorem outputIsNeverRead : Obligations.OutputIsNeverRead := by
  intro n s t o h
  have hstatus : ∀ {s s' : State}, s' = s.withEarlierOutput o → s'.status = s.status := by
    rintro s _ rfl
    rfl
  have hstep : ∀ {s s' t : State}, s' = s.withEarlierOutput o → step s = .next t →
      ∃ t', step s' = .next t' ∧ t' = t.withEarlierOutput o := by
    rintro s _ t rfl h
    exact ⟨_, step_withEarlierOutput o h, rfl⟩
  obtain ⟨_, ht, rfl⟩ := run_simulates hstatus hstep n rfl h
  exact ht

end Sys2Proof.Machine
end

section
/-! PROOF. Memory and the program counter (10_state.md R27, R46; 20_memory.md R50). -/
namespace Sys2Proof.Machine

/-- PUSH and CALL decrement SP (R150, R152). -/
theorem sp_effect_of_stack_writer {i : Instr} {r : Byte} (hi : i = .push r ∨ i = .call r) (s : State) :
    (effect i s).sp = s.sp - 1 := by
  rw [sp_eq_regAt]
  rcases hi with rfl | rfl
  · exact regAt_setAt_self s.x (by decide) _
  · exact regAt_setAt_self s.x (by decide) _

/-- Settles O46: an effect that writes memory is PUSH's or CALL's. -/
theorem onlyPushAndCallWriteMemory : Obligations.OnlyPushAndCallWriteMemory := by
  intro s t h
  cases step_iff.1 h with
  | stays hs => exact .inl rfl
  | runs i hs hi hr =>
    by_cases hw : ∃ r, i = .push r ∨ i = .call r
    · obtain ⟨r, hw⟩ := hw
      have hopc : s.readByte s.pc = opcode .push ∨ s.readByte s.pc = opcode .call := by
        rw [State.opcode_of_fetch hi]
        rcases hw with rfl | rfl
        · exact .inl rfl
        · exact .inr rfl
      exact .inr ⟨hopc, sp_effect_of_stack_writer hw s, effect_mem_of_stack_writer hw s⟩
    · exact .inl (effect_mem (fun r e => hw ⟨r, .inl e⟩) (fun r e => hw ⟨r, .inr e⟩) s)
  | faults i b hs hi hr => exact .inl rfl
  | skips hs hi => exact .inl rfl

/-- An effect from Running never ends Faulted. -/
theorem effect_not_faulted {s : State} (hs : s.status = .running) (i : Instr) (info : FaultInfo) :
    (effect i s).status ≠ .faulted info := by
  by_cases hh : i = .hlt
  · subst hh
    exact nofun
  · rw [effect_status hh, hs]
    exact nofun

/-- Settles O47: each effect writes pc in its own way, and a fault does not. -/
theorem pcMovesInOneOfFourWays : Obligations.PcMovesInOneOfFourWays := by
  intro s t hs h
  cases step_iff.1 h with
  | stays hn => exact absurd hs hn
  | runs i hs hi hr =>
    refine ⟨fun ⟨info, hinfo⟩ => absurd hinfo (effect_not_faulted hs i info), fun _ => ?_⟩
    rw [hi]
    cases i with | _ => rfl
  | faults i b hs hi hr => exact ⟨fun _ => rfl, fun hno => absurd rfl (hno _)⟩
  | skips hs hi =>
    refine ⟨fun ⟨info, hinfo⟩ => absurd (hs.symm.trans hinfo) nofun, fun _ => ?_⟩
    rw [hi]
    rfl

end Sys2Proof.Machine
end

section
/-! SUPPORT. The dispatch block (10_state.md R45; 40_execution_loop.md R104) and the decoder, by the class of the opcode byte. -/
namespace Sys2Proof.Machine

/-- The outputs of the dispatch block for a class. -/
def dispatchOf (c : OpClass) (e : Bool) : Dispatched :=
  { cls := some c, len := c.format.length, operands := c.format.operands, aluOp := c.aluOp, pcSel := c.pcSel e }

theorem dispatch_of_class {opc : Byte} {c : OpClass} (h : classOf opc = some c) (e : Bool) : dispatch opc e = dispatchOf c e := by
  simp only [dispatch, h, dispatchOf]

/-- The instruction of a class with two operand bytes at hand, of which it takes those it has (R71). -/
def instrOf (c : OpClass) (b1 b2 : Byte) : Instr :=
  match c with
  | .ldi  => .ldi b1 b2
  | .prn  => .prn b1
  | .hlt  => .hlt
  | .mul  => .mul b1 b2
  | .add  => .add b1 b2
  | .push => .push b1
  | .pop  => .pop b1
  | .call => .call b1
  | .ret  => .ret
  | .cmp  => .cmp b1 b2
  | .jmp  => .jmp b1
  | .jeq  => .jeq b1
  | .jne  => .jne b1

/-- The decoder takes the class of the opcode byte and the operand bytes that class has (R76). -/
theorem decodeWindow_eq_map (opc b1 b2 : Byte) : decodeWindow opc b1 b2 = (classOf opc).map fun c => instrOf c b1 b2 := by
  unfold decodeWindow
  cases classOf opc with
  | none => rfl
  | some c => cases c <;> rfl

end Sys2Proof.Machine
end

section
/-! PROOF. The dispatch block agrees with the decoder (R45, R70, R104). -/
namespace Sys2Proof.Machine

/-- Settles O6: the dispatch block and the decoder both go by the class of the opcode byte. -/
theorem dispatchAgreesWithTheDecoder : Obligations.DispatchAgreesWithTheDecoder := by
  intro opc op1 op2 e i hi
  rw [dispatch_of_class (decodeWindow_class hi)]
  refine ⟨rfl, ?length, ?operands, ?registers, ?alu⟩
  case length => cases i <;> rfl
  case operands => cases i <;> rfl
  case registers => cases i <;> rfl
  case alu => cases i <;> simp [dispatchOf, Instr.opClass, OpClass.aluOp]

end Sys2Proof.Machine
end

section
/-! PROOF. The seven sub-blocks (10_state.md R40 to R46): wired together they raise what the pseudocode of the class raises, in its
order, and commit what it writes. -/
namespace Sys2Proof.Machine

section
variable (cfg : Config) (s : State)

/-! ## The blocks against the operations of the pseudocode -/

/-- The immediate is the byte fetched; its address alone can raise (R72). -/
theorem immOperand_bind {α : Type} (k : Nat) (b : Byte) (f : Byte → Except FaultCause α) :
    (immOperand cfg k b s >>= f) = s.pcPlus cfg k >>= fun _ => f b := by
  simp [immOperand]

theorem State.decSp_bind {α : Type} (f : State → Except FaultCause α) :
    (s.decSp cfg >>= f) = spDec cfg s.sp >>= fun sp => f (s.setSp sp) := by
  simp [State.decSp]

theorem State.incSp_bind {α : Type} (f : State → Except FaultCause α) :
    (s.incSp cfg >>= f) = spInc cfg s.sp >>= fun sp => f (s.setSp sp) := by
  simp [State.incSp]

/-- The ports of an ALU that raises nothing: the one the answer drives, the other idle (R43). -/
def AluOut.ports : AluOut → AluPorts
  | .value y  => { y := y, flOut := 0, fault := none }
  | .flags fl => { y := 0, flOut := fl, fault := none }

/-- Where the dispatch block drives the ALU, its stage raises what the ALU raises, and what follows takes the ports of its answer. -/
theorem aluStage_bind_congr {α : Type} {d : Dispatched} {op : AluOp} (hd : d.aluOp = some op) {a b : Byte}
    {f : AluPorts → Except FaultCause α} {g : AluOut → Except FaultCause α} (hfg : ∀ o, alu cfg op a b = .ok o → f o.ports = g o) :
    (aluStage cfg d a b >>= f) = alu cfg op a b >>= g := by
  simp only [aluStage, hd, aluPorts]
  cases h : alu cfg op a b with
  | error c => rfl
  | ok o =>
    rw [ok_bind, ← hfg o h]
    cases o <;> rfl

/-- Where the dispatch block does not drive the ALU, its stage raises nothing. -/
theorem aluStage_bind_idle {α : Type} {d : Dispatched} (hd : d.aluOp = none) (a b : Byte) (f : AluPorts → Except FaultCause α) :
    (aluStage cfg d a b >>= f) = f { y := 0, flOut := 0, fault := none } := by
  simp only [aluStage, hd, ok_bind]

/-- What a mapped operation answers is an answer mapped. -/
theorem exists_of_map_ok {α β : Type} {x : Except FaultCause α} {f : α → β} {b : β} (h : x.map f = .ok b) : ∃ a, b = f a := by
  cases x with
  | error c => cases h
  | ok a => exact ⟨a, (Except.ok.inj h).symm⟩

/-- ADD and MUL answer a value, not flags (R131). -/
theorem alu_ok_value {op : AluOp} (hop : op = .add ∨ op = .mul) {a b : Byte} {o : AluOut} (h : alu cfg op a b = .ok o) :
    ∃ y, o = .value y := by
  rcases hop with rfl | rfl
  · exact exists_of_map_ok h
  · exact exists_of_map_ok h

/-- The register port after the SP write: the new SP when it names x[7] (R14, R40). -/
theorem regPort_after_dec (ra : RegIndex) (sp : Byte) :
    (if ra = spIndex then sp else s.x[ra.val]) = (s.setSp sp).reg ra :=
  (s.reg_setSp ra sp).symm

/-- The SP port after the general write: the data written when it went to x[7] (R14, R40). -/
theorem spPort_after_write (ra : RegIndex) (v : Byte) :
    (if ra = spIndex then v else s.x[spIndex.val]) = (s.setReg ra v).sp := by
  rw [State.sp_setReg, State.sp, State.reg]
  simp only [eq_comm]

end

/-! ## One pass through the blocks, by the class of the opcode byte -/

/-- For an assigned opcode byte the wired blocks are the pseudocode of its class: the operand, ALU, link, SP and pc stages raise in the
order of its lines, and the writes committed at the end are the writes of its lines. -/
theorem datapathBody_of_class {cfg : Config} {s : State} {c : OpClass} (h : classOf (s.readByte s.pc) = some c) :
    datapathBody cfg s = bodyUnder cfg (instrOf c (s.fetchByte cfg 1) (s.fetchByte cfg 2)) s := by
  simp only [datapathBody, dispatch_of_class h]
  generalize s.fetchByte cfg 1 = b1
  generalize s.fetchByte cfg 2 = b2
  cases c
  all_goals simp only [dispatchOf, OpClass.format, Format.operands, OpClass.pcSel, firstReg, secondReg, linkStage, spSelOf, spStage,
    pcNext, regFileOut, regWriteOf, Option.getD_some, ne_eq, reduceCtorEq, not_false_eq_true, decide_true, true_and, ok_bind]
  case hlt => rfl
  case jmp => exact bind_congr fun rt => rfl
  case prn => exact bind_congr fun rd => bind_congr fun pc => rfl
  case ret => exact bind_congr fun sp => rfl
  case jeq | jne =>
    refine bind_congr fun rt => ?_
    cases s.flagE <;> rfl
  case ldi =>
    simp only [instrOf, bodyUnder, ldiBody, bind_assoc, immOperand_bind]
    exact bind_congr fun rd => bind_congr fun _ => bind_congr fun pc => rfl
  case add =>
    refine bind_congr fun ia => bind_congr fun ib => aluStage_bind_congr cfg rfl fun o ho => ?_
    obtain ⟨y, rfl⟩ := alu_ok_value cfg (.inl rfl) ho
    exact bind_congr fun pc => rfl
  case mul =>
    refine bind_congr fun ia => bind_congr fun ib => aluStage_bind_congr cfg rfl fun o ho => ?_
    obtain ⟨y, rfl⟩ := alu_ok_value cfg (.inr rfl) ho
    exact bind_congr fun pc => rfl
  case cmp =>
    refine bind_congr fun ia => bind_congr fun ib => aluStage_bind_congr cfg rfl fun o ho => ?_
    cases ho
    exact bind_congr fun pc => rfl
  case push =>
    simp only [instrOf, bodyUnder, pushBody, State.decSp_bind, State.sp_setSp, regPort_after_dec]
    exact bind_congr fun rs => (aluStage_bind_idle cfg rfl _ _ _).trans (bind_congr fun sp => bind_congr fun pc => rfl)
  case pop =>
    simp only [instrOf, bodyUnder, popBody, State.incSp_bind, spPort_after_write]
    exact bind_congr fun rd => (aluStage_bind_idle cfg rfl _ _ _).trans (bind_congr fun sp => bind_congr fun pc => rfl)
  case call =>
    simp only [instrOf, bodyUnder, callBody, State.decSp_bind, State.sp_setSp, regPort_after_dec]
    exact bind_congr fun rt => (aluStage_bind_idle cfg rfl _ _ _).trans (bind_congr fun ret => bind_congr fun sp => rfl)

/-- For an unassigned opcode byte the wired blocks step pc past it (R105). -/
theorem datapathBody_of_unassigned {cfg : Config} {s : State} (h : classOf (s.readByte s.pc) = none) :
    datapathBody cfg s = unassignedBody cfg s := by
  simp only [datapathBody, dispatch, h]
  exact bind_congr fun pc => rfl

/-! ## One step -/

/-- What is performed depends on the pseudocode at this state alone. -/
theorem perform_congr {opc : Byte} {f g : State → Except FaultCause State} {s : State} (h : f s = g s) :
    perform opc f s = perform opc g s := by
  simp only [perform, h]

theorem datapathStep_running {cfg : Config} {s : State} (hs : s.status = .running) :
    datapathStep cfg s = perform (s.readByte s.pc) (datapathBody cfg) s := by
  simp only [datapathStep, hs]

theorem datapathStep_terminal {cfg : Config} {s : State} (hs : s.status ≠ .running) : datapathStep cfg s = .next s := by
  unfold datapathStep
  split
  · next h => exact absurd h hs
  · rfl
  · rfl

/-- Settles O50, by the class of the opcode byte at pc. -/
theorem datapathEqualsThePseudocode : Obligations.DatapathEqualsThePseudocode := by
  intro cfg s
  by_cases hs : s.status = .running
  · rw [datapathStep_running hs, stepUnder]
    cases hc : classOf (s.readByte s.pc) with
    | none =>
      rw [cycle_unassigned hs (decodeWindow_none.2 hc)]
      exact perform_congr (datapathBody_of_unassigned hc)
    | some c =>
      have hi : s.fetch cfg = some (instrOf c (s.fetchByte cfg 1) (s.fetchByte cfg 2)) := by
        rw [State.fetch, decodeWindow_eq_map, hc, Option.map_some]
      rw [cycle_instr hs hi, State.opcode_of_fetch hi]
      exact perform_congr (datapathBody_of_class hc)
  · rw [datapathStep_terminal hs, stepUnder_terminal hs]

end Sys2Proof.Machine
end

section
/-! SUPPORT. Strings of bytes and instructions (30_encoding.md R70, R71, R75): an instruction is its opcode byte and the operand bytes
its format has, and `decode` and `encode` both cut a string there. -/
namespace Sys2Proof.Machine

/-- An instruction has at most two operand bytes (R71). -/
theorem length_le_three (i : Instr) : i.length ≤ 3 := by
  unfold Instr.length
  cases i.opClass <;> decide

/-- The encoder writes the opcode byte, then the operand bytes. -/
theorem encode_eq_cons (i : Instr) : encode i = opcodeOf i :: (encode i).tail := by cases i <;> rfl

theorem length_tail_encode (i : Instr) : (encode i).tail.length = i.length - 1 := by cases i <;> rfl

/-- A string of bytes decodes exactly when its opcode byte is assigned and the operand bytes are there; what is left is the string
after them. -/
theorem decode_cons_eq_ok {opc : Byte} {bs rest : List Byte} {i : Instr} :
    decode (opc :: bs) = .ok (i, rest) ↔
      decodeWindow opc (bs.getD 0 0) (bs.getD 1 0) = some i ∧ i.length ≤ bs.length + 1 ∧ bs.drop (i.length - 1) = rest := by
  rw [decode]
  cases decodeWindow opc (bs.getD 0 0) (bs.getD 1 0) with
  | none => simp
  | some j =>
    by_cases hj : j.length ≤ bs.length + 1
    · simp only [hj, if_true, Except.ok.injEq, Prod.mk.injEq, Option.some.injEq]
      refine and_congr_right ?_
      rintro rfl
      simp only [hj, true_and]
    · simp only [hj, if_false, reduceCtorEq, Option.some.injEq, false_iff]
      rintro ⟨rfl, h, -⟩
      exact hj h

/-- The window on an instruction's own bytes decodes to it, whatever bytes follow. -/
theorem decodeWindow_encode (i : Instr) (rest : List Byte) :
    decodeWindow (opcodeOf i) (((encode i).tail ++ rest).getD 0 0) (((encode i).tail ++ rest).getD 1 0) = some i := by
  rw [decodeWindow_eq_map, opcodeOf, classOf_opcode]
  cases i <;> rfl

/-- The operand bytes of a decoded instruction are those of the window that its format has. -/
theorem tail_encode_of_decodeWindow {opc b1 b2 : Byte} {i : Instr} (h : decodeWindow opc b1 b2 = some i) :
    (encode i).tail = [b1, b2].take (i.length - 1) := by
  rw [decodeWindow_eq_map] at h
  obtain ⟨c, -, rfl⟩ := Option.map_eq_some_iff.1 h
  cases c <;> rfl

/-- The window pads a string with zeros, and only behind its end: as far as the string reaches, the two agree. -/
theorem take_window {n : Nat} {bs : List Byte} (hn : n ≤ 2) (hbs : n ≤ bs.length) :
    [bs.getD 0 0, bs.getD 1 0].take n = bs.take n := by
  match n, bs with
  | 0, _ => rfl
  | 1, _ :: _ => rfl
  | 2, _ :: _ :: _ => rfl

end Sys2Proof.Machine
end

section
/-! PROOF. The decoder and the encoder are inverse to each other (R70, R71, R73, R75, R76), and words of the table (R81). -/
namespace Sys2Proof.Machine

/-- Settles O3: the window on an instruction's bytes decodes to it, and its length cuts the string where its bytes end. -/
theorem decodeOfEncodeIsTheInstruction : Obligations.DecodeOfEncodeIsTheInstruction := by
  intro i rest
  have hlen := length_tail_encode i
  rw [encode_eq_cons, List.cons_append]
  refine decode_cons_eq_ok.2 ⟨decodeWindow_encode i rest, ?enough, List.drop_left' hlen⟩
  case enough =>
    rw [List.length_append]
    omega

/-- Settles O4: a string that decodes is its opcode byte, the operand bytes the window shows, and the rest. -/
theorem decodedBytesAreTheEncoding : Obligations.DecodedBytesAreTheEncoding := by
  intro bytes rest i h
  cases bytes with
  | nil => cases h
  | cons opc bs =>
    obtain ⟨hw, hlen, rfl⟩ := decode_cons_eq_ok.1 h
    have hi := length_le_three i
    have hoperands : (encode i).tail = bs.take (i.length - 1) :=
      (tail_encode_of_decodeWindow hw).trans (take_window (by omega) (by omega))
    rw [encode_eq_cons, List.cons_append, hoperands, List.take_append_drop, decodeWindow_opcode hw]

/-- Settles O8: each word of an instruction is its encoding (O3), and 192 is no code. -/
theorem wordsOfTheTableDecode : Obligations.WordsOfTheTableDecode :=
  ⟨decodeOfEncodeIsTheInstruction (.ldi 0 5) [], decodeOfEncodeIsTheInstruction (.prn 0) [],
    decodeOfEncodeIsTheInstruction (.add 0 1) [], decodeOfEncodeIsTheInstruction (.call 1) [],
    decodeOfEncodeIsTheInstruction .ret [], decodeOfEncodeIsTheInstruction (.jne 3) [], rfl⟩

end Sys2Proof.Machine
end

section
/-! PROOF. The opcode map: the unassigned bytes (R76) and the regularity of the thirteen codes (R74). -/
namespace Sys2Proof.Machine

/-- A byte has no class exactly when it is none of the thirteen codes (R76). -/
theorem classOf_eq_none {opc : Byte} :
    classOf opc = none ↔ opc.toNat ∉ [130, 71, 1, 162, 160, 69, 70, 80, 17, 167, 84, 85, 86] := by
  unfold classOf
  split <;> simp_all

/-- The outputs of the dispatch block for an unassigned byte (R45, R76). -/
theorem dispatch_of_unassigned {opc : Byte} (h : classOf opc = none) (e : Bool) :
    dispatch opc e = { cls := none, len := 1, operands := [], aluOp := none, pcSel := .seq } := by
  simp only [dispatch, h]

/-- After an unassigned byte at pc the next fetch is at the byte after it (R76). -/
theorem fetch_after_skip (s : State) : (s.setPc (s.pc + 1)).fetch decided =
    decodeWindow (s.readByte (s.pc + 1)) (s.readByte (s.pc + 2)) (s.readByte (s.pc + 3)) := by
  simp [State.fetch_decided, BitVec.add_assoc]

/-- Settles O5: the codes left out of the thirteen leave the listed ranges, and the skip moves pc by 1. -/
theorem unassignedOpcodesAreTheListedOnes : Obligations.UnassignedOpcodesAreTheListedOnes := by
  refine ⟨?codes, ?ranges, ?dispatch, ?next⟩
  case codes => exact fun opc op1 op2 => decodeWindow_none.trans classOf_eq_none
  case ranges =>
    intro opc op1 op2
    rw [decodeWindow_none, classOf_eq_none]
    simp only [List.mem_cons, List.not_mem_nil, or_false, not_or]
    omega
  case dispatch =>
    intro opc op1 op2 e h
    rw [dispatch_of_unassigned (decodeWindow_none.1 h)]
    exact ⟨rfl, rfl, rfl⟩
  case next => exact fun s hs hi => ⟨s.setPc (s.pc + 1), step_of_fetch_none hs hi, hs, fetch_after_skip s⟩

/-- Settles O7, by the class: each code is a closed byte. -/
theorem codesShowTheirOperandCountAndKind : Obligations.CodesShowTheirOperandCountAndKind := by
  intro c
  refine ⟨?count, ?alu, ?setsPc⟩
  case count => cases c <;> rfl
  case alu => cases c <;> decide
  case setsPc => cases c <;> decide

end Sys2Proof.Machine
end

section
/-! SUPPORT. The execution loop (40_execution_loop.md R100 to R108): runs one step at a time, and the status a step leaves. -/
namespace Sys2Proof.Machine

/-! ## Runs (R102, R107) -/

/-- From a terminal state a run stays where it is (R107). -/
theorem run_terminal (n : Nat) {s : State} (hs : s.status ≠ .running) : run n s = .next s := runWith_terminal n hs

/-- A run takes one step first, which from a terminal state changes nothing. -/
theorem run_succ (n : Nat) {s t : State} (h : step s = .next t) : run (n + 1) s = run n t := by
  by_cases hs : s.status = .running
  · exact runWith_succ n hs h
  · cases (cycle_terminal hs).symm.trans h
    rw [run_terminal (n + 1) hs, run_terminal n hs]

/-- A run always answers a state: no step stops outside the machine's own state. -/
theorem run_total (n : Nat) (s : State) : ∃ t, run n s = .next t := by
  induction n generalizing s with
  | zero => exact ⟨s, rfl⟩
  | succ n ih =>
    obtain ⟨u, hu⟩ := step_total s
    exact run_succ n hu ▸ ih u

/-- A run goes on from the state that a shorter run reached. -/
theorem run_add {n : Nat} (m : Nat) {s t : State} (h : run n s = .next t) : run (n + m) s = run m t := by
  induction n generalizing s with
  | zero =>
    cases h
    rw [Nat.zero_add]
  | succ n ih =>
    obtain ⟨u, hu⟩ := step_total s
    rw [Nat.add_right_comm, run_succ (n + m) hu]
    exact ih ((run_succ n hu).symm.trans h)

/-- The host's steps take one step first. -/
theorem core_run_succ {M : Host.Core} (n : Nat) {s t : M.State} (h : M.step s = .next t) : M.run (n + 1) s = M.run n t := by
  simp only [Host.Core.run, h]

/-! ## The status (R33, R100) -/

/-- Halted and Faulted are all that a machine that is not Running can be. -/
theorem status_ne_running_iff {s : State} : s.status ≠ .running ↔ s.EndedNormally ∨ s.EndedInError := by
  unfold State.EndedNormally State.EndedInError
  cases s.status <;> simp

/-- An instruction is well-formed when every register operand byte it has is accepted (R72). -/
theorem wf_eq_all_regBytes (i : Instr) : i.wf = (regBytes i).all isRegByte := by
  cases i <;> simp [Instr.wf, regBytes]

/-- An instruction is well-formed exactly when the register check finds no byte above 7 (R72, R202). -/
theorem wf_iff_firstBadReg {i : Instr} : i.wf = true ↔ firstBadReg (regBytes i) = none := by
  rw [wf_eq_all_regBytes, firstBadReg, List.find?_eq_none, List.all_eq_true]
  simp [isRegByte, Nat.lt_succ_iff]

/-- The status a step from Running leaves, with what was at pc: HLT halts, a register byte above 7 faults, and anything else runs on
(R100). -/
theorem step_status {s t : State} (hs : s.status = .running) (h : step s = .next t) :
    (t.status = .halted ∧ s.fetch decided = some .hlt) ∨
    ((∃ info, t.status = .faulted info) ∧ ∃ i, s.fetch decided = some i ∧ i.wf = false) ∨
    (t.status = .running ∧ s.fetch decided ≠ some .hlt ∧ ∀ i, s.fetch decided = some i → i.wf = true) := by
  cases step_iff.1 h with
  | stays hn => exact absurd hs hn
  | runs i _ hi hr =>
    by_cases hh : i = .hlt
    · subst hh
      exact .inl ⟨rfl, hi⟩
    · refine .inr (.inr ⟨(effect_status hh s).trans hs, by simpa [hi] using hh, ?_⟩)
      simpa [hi] using wf_iff_firstBadReg.2 hr
  | faults i b _ hi hr =>
    have hwf : i.wf ≠ true := fun hwf => by simp [wf_iff_firstBadReg.1 hwf] at hr
    exact .inr (.inl ⟨⟨_, rfl⟩, i, hi, Bool.eq_false_iff.2 hwf⟩)
  | skips _ hi => exact .inr (.inr ⟨hs, by simp [hi], by simp [hi]⟩)

end Sys2Proof.Machine
end

section
/-! PROOF. The states of the loop (40_execution_loop.md R100, R102, R106 to R108): HLT, the transitions, and how a run ends. -/
namespace Sys2Proof.Machine

/-- Settles O11. -/
theorem terminalStatesTakeNoStep : Obligations.TerminalStatesTakeNoStep := by
  intro s cfg n hend
  have hs : s.status ≠ .running := status_ne_running_iff.2 hend
  exact ⟨cycle_terminal hs, stepUnder_terminal hs, run_terminal n hs⟩

/-- Settles O27: HLT computes no address and no value, so no policy enters. -/
theorem hltHaltsInPlace : Obligations.HltHaltsInPlace :=
  fun s => ⟨exec_of_regs rfl s, fun _ => perform_ok rfl⟩

/-- Settles O12: the three conditions on the byte at pc exclude each other, as the three statuses do. -/
theorem loopStateTransitions : Obligations.LoopStateTransitions := by
  refine ⟨fun s hs => ?_, fun s hs => cycle_terminal hs⟩
  obtain ⟨t, ht⟩ := step_total s
  refine ⟨t, ht, ?_⟩
  obtain ⟨hst, hi⟩ | ⟨⟨info, hst⟩, i, hi, hwf⟩ | ⟨hst, hne, hwf⟩ := step_status hs ht
  · simp [hst, hi, Instr.wf]
  · have hne : i ≠ .hlt := by rintro rfl; cases hwf
    simp [hst, hi, hwf, hne]
  · have hnone : ¬ ∃ i, s.fetch decided = some i ∧ i.wf = false := fun ⟨i, hi, hbad⟩ => by simp [hwf i hi] at hbad
    simpa [hst, hne, hnone] using hwf

/-- Settles O13: a run that is not Running after some number of steps has reached a terminal state, and stays there. -/
theorem everyRunEndsOrIsInfinite : Obligations.EveryRunEndsOrIsInfinite := by
  intro s
  by_cases hforever : s.RunsForever
  · exact .inl hforever
  · obtain ⟨n, hn⟩ := not_forall.1 hforever
    obtain ⟨t, ht⟩ := run_total n s
    have hst : t.status ≠ .running := fun hr => hn ⟨t, ht, hr⟩
    exact .inr ⟨n, t, ht, status_ne_running_iff.1 hst, fun m => (run_add m ht).trans (run_terminal m hst)⟩

/-- Settles O14, by induction on the number of steps. -/
theorem hostStepsAgreeWithRun : Obligations.HostStepsAgreeWithRun := by
  intro n
  induction n with
  | zero => exact fun s => rfl
  | succ n ih =>
    intro s
    obtain ⟨t, ht⟩ := step_total s
    exact (core_run_succ n ht).trans ((ih t).trans (run_succ n ht).symm)

end Sys2Proof.Machine
end

section
/-! PROOF. The silent skip (40_execution_loop.md R105). -/
namespace Sys2Proof.Machine

/-- Going past `len` bytes has one thing to check, the address it goes to (R27, R204). -/
theorem perform_advance (cfg : Config) (opc : Byte) (len : Nat) (s : State) :
    perform opc (State.advance cfg len) s =
      outcomeOf cfg opc [.addr (s.pc.toNat + len)] s { s with pc := addrOf cfg (s.pc.toNat + len) } := by
  rw [outcomeOf, firstRaise_cons, firstRaise_nil, Option.or_none]
  cases hr : (Check.addr (s.pc.toNat + len)).raises cfg with
  | none => exact perform_ok (by rw [State.advance, State.pcPlus, normAddr_of_check hr]; rfl)
  | some c => exact perform_error (by rw [State.advance, State.pcPlus, normAddr_of_raise hr]; rfl)

section
variable {s : State} (hs : s.status = .running) (hopc : classOf (s.readByte s.pc) = none)
include hs hopc

/-- From Running, an unassigned opcode is skipped (R105). -/
theorem step_of_unassigned : step s = .next (s.setPc (s.pc + 1)) := step_of_fetch_none hs (decodeWindow_none.2 hopc)

/-- The skip under any policies. -/
theorem stepUnder_of_unassigned (cfg : Config) : stepUnder cfg s =
    outcomeOf cfg (s.readByte s.pc) [.addr (s.pc.toNat + 1)] s { s with pc := addrOf cfg (s.pc.toNat + 1) } :=
  (cycle_unassigned hs (decodeWindow_none.2 hopc)).trans (perform_advance cfg _ 1 s)

/-- Under Clamp the skip at the last address stays there. -/
theorem stepUnder_clamp_at_last (ov : OverflowPolicy) (hpc : s.pc = 255) :
    stepUnder { addrPolicy := .clamp, overflowPolicy := ov } s = .next s := by
  have hlast : addrOf { addrPolicy := .clamp, overflowPolicy := ov } (s.pc.toNat + 1) = s.pc := by simp [addrOf, hpc]
  rw [stepUnder_of_unassigned hs hopc, hlast]
  rfl

end

/-- With no assigned opcode anywhere, each step of a run moves pc by 1 and nothing else. -/
theorem run_of_no_opcode (n : Nat) {s : State} (hs : s.status = .running) (hopc : ∀ a : Byte, classOf (s.readByte a) = none) :
    run n s = .next (s.setPc (s.pc + BitVec.ofNat 8 n)) := by
  induction n generalizing s with
  | zero => simp [run, runWith_zero, State.setPc]
  | succ n ih =>
    have hpc : s.pc + 1 + BitVec.ofNat 8 n = s.pc + BitVec.ofNat 8 (n + 1) := by bv_omega
    rw [run_succ n (step_of_unassigned hs (hopc s.pc)), ih (s := s.setPc (s.pc + 1)) hs hopc, State.setPc_pc, hpc]
    rfl

/-- Settles O10. -/
theorem unassignedOpcodeIsSkipped : Obligations.UnassignedOpcodeIsSkipped :=
  ⟨fun _ hs hopc => ⟨step_of_unassigned hs hopc, stepUnder_of_unassigned hs hopc⟩,
    fun _ ov hs hopc => stepUnder_clamp_at_last hs hopc ov, fun _ n => run_of_no_opcode n⟩

end Sys2Proof.Machine
end

section
/-! PROOF. The invariant at its base (40_execution_loop.md R101; 70_reset_and_hazards.md R230): at reset and after a load. -/
namespace Sys2Proof.Machine

theorem State.reset_inv : State.reset.Inv := ⟨State.reset_mem_wf, .inl rfl, statusLegal_of_running rfl⟩

/-- Placing bytes keeps the invariant of a running machine: Running says nothing of the byte at pc. -/
theorem State.writeBytes_inv (bs : List Byte) (a : Byte) {s : State} (hs : s.status = .running) (hinv : s.Inv) :
    (s.writeBytes a bs).Inv := by
  obtain ⟨hm, hf, -⟩ := hinv
  have hwf := State.writeBytes_mem_wf bs a hm
  rw [State.writeBytes_eq] at hwf ⊢
  exact ⟨hwf, hf, statusLegal_of_running hs⟩

/-- What `load` answers is the reset state with the image's bytes from address 0 (R36, R101). -/
theorem load_next {image : List Int} {t : State} (h : load image = .next t) :
    t = State.reset.writeBytes 0 (image.map (BitVec.ofInt 8)) := by
  unfold load at h
  split at h
  · cases h
  · split at h
    · cases h
    · cases h
      rfl

/-- Settles O16. -/
theorem resetAndLoadMeetTheInvariant : Obligations.ResetAndLoadMeetTheInvariant :=
  ⟨State.reset_inv, fun _ _ h => load_next h ▸ State.writeBytes_inv _ 0 rfl State.reset_inv⟩

end Sys2Proof.Machine
end

section
/-! SUPPORT. Pseudocode as a list of checks (60_exceptions.md R210): under any policies, each line that can raise puts its check in
front of those of the lines after it. -/
namespace Sys2Proof.Machine

/-! ## Under any policies -/

/-- The state `t`, unless one of `checks` raises under `cfg`: then what the first of them raises. -/
def checkedBy (cfg : Config) (checks : List Check) (t : State) : Except FaultCause State :=
  (firstRaise cfg checks).elim (.ok t) .error

/-- An instruction whose pseudocode is a list of checks has the outcome of that list (R13, R210). -/
theorem perform_of_checkedBy {cfg : Config} {opc : Byte} {body : State → Except FaultCause State} {checks : List Check} {s t : State}
    (h : body s = checkedBy cfg checks t) : perform opc body s = outcomeOf cfg opc checks s t := by
  rw [perform, h, checkedBy, outcomeOf]
  cases firstRaise cfg checks <;> rfl

section
variable {cfg : Config} {cs : List Check} {t : State}

/-- A line that raises what `c` raises, and goes on to the checks `cs` where `c` does not raise, puts `c` in front of them. -/
theorem bind_eq_checkedBy {α : Type} {c : Check} {x : Except FaultCause α} {f : α → Except FaultCause State}
    (hraise : ∀ {e}, c.raises cfg = some e → x = .error e) (hok : c.raises cfg = none → (x >>= f) = checkedBy cfg cs t) :
    (x >>= f) = checkedBy cfg (c :: cs) t := by
  cases hc : c.raises cfg with
  | none => rw [hok hc, checkedBy, checkedBy, firstRaise_cons, hc, Option.none_or]
  | some e => rw [hraise hc, error_bind, checkedBy, firstRaise_cons, hc, Option.some_or, Option.elim_some]

/-- A computed address is one check (R12, R204). -/
theorem normAddr_bind_eq_checkedBy {e : Int} {f : Byte → Except FaultCause State} (hf : f (addrOf cfg e) = checkedBy cfg cs t) :
    (normAddr cfg e >>= f) = checkedBy cfg (.addr e :: cs) t :=
  bind_eq_checkedBy normAddr_of_raise fun hc => by rw [normAddr_of_check hc, ok_bind, hf]

/-- A register operand byte is one check (R12, R202). -/
theorem regIndex_bind_eq_checkedBy {r : Byte} {f : RegIndex → Except FaultCause State}
    (hf : ∀ hr : r.toNat < 8, f ⟨r.toNat, hr⟩ = checkedBy cfg cs t) : (regIndex r >>= f) = checkedBy cfg (.reg r :: cs) t :=
  bind_eq_checkedBy regIndex_of_raise fun hc => by
    obtain ⟨hr, hi⟩ := regIndex_of_check hc
    rw [hi, ok_bind, hf hr]

/-- A register operand is the check of its address, then of its byte (R72, R210). -/
theorem regOperand_bind_eq_checkedBy {k : Nat} {r : Byte} {s : State} {f : RegIndex → Except FaultCause State}
    (hf : ∀ hr : r.toNat < 8, f ⟨r.toNat, hr⟩ = checkedBy cfg cs t) :
    (regOperand cfg k r s >>= f) = checkedBy cfg (.addr (s.pc.toNat + k) :: .reg r :: cs) t := by
  rw [regOperand, bind_assoc]
  exact normAddr_bind_eq_checkedBy (regIndex_bind_eq_checkedBy hf)

/-- An immediate operand is the check of its address (R72). -/
theorem immOperand_bind_eq_checkedBy {k : Nat} {b : Byte} {s : State} {f : Byte → Except FaultCause State}
    (hf : f b = checkedBy cfg cs t) : (immOperand cfg k b s >>= f) = checkedBy cfg (.addr (s.pc.toNat + k) :: cs) t := by
  rw [immOperand, bind_assoc]
  exact normAddr_bind_eq_checkedBy hf

end

/-- Going past `len` bytes is the check of the address it goes to (R27, R204). -/
theorem State.advance_eq_checkedBy (cfg : Config) (len : Nat) (s : State) :
    s.advance cfg len = checkedBy cfg [.addr (s.pc.toNat + len)] (s.setPc (addrOf cfg (s.pc.toNat + len))) :=
  normAddr_bind_eq_checkedBy rfl

/-! ## Under the decided policies -/

/-- An instruction with the one register operand `r`, in 0..7, has its effect. -/
theorem exec_of_one_reg {i : Instr} {r : Byte} (hi : regBytes i = [r]) (hr : r.toNat < 8) (s : State) :
    exec i s = .next (effect i s) :=
  exec_of_regs (hi ▸ List.find?_cons_of_neg (by simpa using Nat.le_of_lt_succ hr)) s

/-- An instruction whose first register operand `r` is above 7 raises IllegalRegisterIndex of it (R202, R210). -/
theorem exec_of_first_badReg {i : Instr} {r : Byte} {bs : List Byte} (hi : regBytes i = r :: bs) (hr : 7 < r.toNat) (s : State) :
    exec i s = .next (takeFault (.illegalRegisterIndex r) (opcodeOf i) s) :=
  exec_of_badReg (hi ▸ List.find?_cons_of_pos (by simpa using hr)) s

end Sys2Proof.Machine
end

section
/-! PROOF. Data movement and output: LDI and PRN (41_data_and_output.md R120, R121). -/
namespace Sys2Proof.Machine

/-- LDI under any policies: register, immediate, next address (R120). -/
theorem ldiBody_eq_checkedBy (cfg : Config) (r imm : Byte) (s : State) : ldiBody cfg r imm s =
    checkedBy cfg [.addr (s.pc.toNat + 1), .reg r, .addr (s.pc.toNat + 2), .addr (s.pc.toNat + 3)]
      { s with x := setAt s.x r imm, pc := addrOf cfg (s.pc.toNat + 3) } := by
  refine regOperand_bind_eq_checkedBy fun hr => immOperand_bind_eq_checkedBy ?_
  rw [setReg_eq_setAt]
  exact State.advance_eq_checkedBy cfg 3 _

/-- PRN under any policies: register, next address (R121). -/
theorem prnBody_eq_checkedBy (cfg : Config) (r : Byte) (s : State) : prnBody cfg r s =
    checkedBy cfg [.addr (s.pc.toNat + 1), .reg r, .addr (s.pc.toNat + 2)]
      { s with out := s.out ++ [regAt s.x r], pc := addrOf cfg (s.pc.toNat + 2) } := by
  refine regOperand_bind_eq_checkedBy fun hr => ?_
  rw [reg_eq_regAt]
  exact State.advance_eq_checkedBy cfg 2 _

/-- Settles O25: the decided clauses are LDI's effect and its register check, the last one its pseudocode as checks. -/
theorem ldiLoadsTheImmediate : Obligations.LdiLoadsTheImmediate := fun r imm s =>
  ⟨fun hr => exec_of_one_reg rfl hr s, fun hr => exec_of_first_badReg rfl hr s,
    fun cfg => perform_of_checkedBy (ldiBody_eq_checkedBy cfg r imm s)⟩

/-- Settles O26: the decided clauses are PRN's effect and its register check, the last one its pseudocode as checks. -/
theorem prnEmitsTheRegister : Obligations.PrnEmitsTheRegister := fun r s =>
  ⟨fun hr => exec_of_one_reg rfl hr s, fun hr => exec_of_first_badReg rfl hr s,
    fun cfg => perform_of_checkedBy (prnBody_eq_checkedBy cfg r s)⟩

end Sys2Proof.Machine
end

section
/-! SUPPORT. The ALU (42_alu.md R130 to R134): its arithmetic under each overflow policy, its compare, and the pseudocode that ADD, MUL
and CMP share as a list of checks. -/
namespace Sys2Proof.Machine

/-! ## Arithmetic: the exact result through V (R12, R131, R133) -/

theorem alu_add (cfg : Config) (a b : Byte) : alu cfg .add a b = (normValue cfg ((a.toNat : Int) + b.toNat)).map .value := rfl

theorem alu_mul (cfg : Config) (a b : Byte) : alu cfg .mul a b = (normValue cfg ((a.toNat : Int) * b.toNat)).map .value := rfl

/-- DIV looks at its divisor alone; its answer is the open function's (R134). -/
theorem alu_div (cfg : Config) (a b : Byte) :
    alu cfg .div a b = if b = 0 then .error (.divideByZero a) else .ok (.value (Config.divFn a b)) := rfl

section
variable (ap : AddrPolicy)

/-- Under Wrap an exact result is answered mod 256. -/
theorem exists_value_of_wrap (e : Int) : ∃ y : Byte,
    (normValue { addrPolicy := ap, overflowPolicy := .wrap } e).map AluOut.value = .ok (.value y) ∧ (y.toNat : Int) = e % 256 :=
  ⟨_, rfl, toNat_ofInt_eq_emod e⟩

/-- Under Fault an exact result in 0..255 is answered as it is. -/
theorem exists_value_of_fault {e : Int} (he : 0 ≤ e ∧ e ≤ 255) : ∃ y : Byte,
    (normValue { addrPolicy := ap, overflowPolicy := .fault } e).map AluOut.value = .ok (.value y) ∧ (y.toNat : Int) = e :=
  ⟨_, congrArg (Except.map AluOut.value) (if_pos he), toNat_ofInt_of_mem he⟩

/-- Under Fault an exact result outside 0..255 is raised (R203). -/
theorem value_overflow_of_fault {e : Int} (he : ¬ (0 ≤ e ∧ e ≤ 255)) :
    (normValue { addrPolicy := ap, overflowPolicy := .fault } e).map AluOut.value = .error (.arithmeticOverflow e) :=
  congrArg (Except.map AluOut.value) (if_neg he)

end

/-! ## The compare, flag by flag (R132) -/

theorem compareFlags_eq_less_iff (a b : Byte) : compareFlags a b = 0b100 ↔ a.toNat < b.toNat := by
  unfold compareFlags
  split
  · exact iff_of_true rfl (by omega)
  · split
    · exact iff_of_false (by decide) (by omega)
    · exact iff_of_false (by decide) (by omega)

theorem compareFlags_eq_greater_iff (a b : Byte) : compareFlags a b = 0b010 ↔ b.toNat < a.toNat := by
  unfold compareFlags
  split
  · exact iff_of_false (by decide) (by omega)
  · split
    · exact iff_of_true rfl (by omega)
    · exact iff_of_false (by decide) (by omega)

theorem compareFlags_eq_equal_iff (a b : Byte) : compareFlags a b = 0b001 ↔ a = b := by
  unfold compareFlags
  split
  · exact iff_of_false (by decide) (by bv_omega)
  · split
    · exact iff_of_false (by decide) (by bv_omega)
    · exact iff_of_true rfl (by bv_omega)

/-! ## ADD, MUL and CMP under any policies (R135 to R137) -/

section
variable {cfg : Config} {cs : List Check} {s t : State}

/-- An arithmetic result is one check (R12, R203). -/
theorem value_bind_eq_checkedBy {e : Int} {f : AluOut → Except FaultCause State}
    (hf : f (.value (BitVec.ofInt 8 e)) = checkedBy cfg cs t) :
    ((normValue cfg e).map .value >>= f) = checkedBy cfg (.value e :: cs) t :=
  bind_eq_checkedBy (fun hc => by rw [normValue_of_raise hc]; rfl) fun hc => by rw [normValue_of_check hc]; exact hf

/-- The pseudocode that ADD, MUL and CMP share checks both register operands, then does what the ALU and the write-back do. -/
theorem aluBody_eq_checkedBy {op : AluOp} {ra rb : Byte}
    (h : ∀ ha : ra.toNat < 8, (alu cfg op (regAt s.x ra) (regAt s.x rb) >>= fun o => (s.writeBack ⟨ra.toNat, ha⟩ o).advance cfg 3) =
      checkedBy cfg cs t) :
    aluBody cfg op ra rb s =
      checkedBy cfg (.addr (s.pc.toNat + 1) :: .reg ra :: .addr (s.pc.toNat + 2) :: .reg rb :: cs) t := by
  refine regOperand_bind_eq_checkedBy fun ha => regOperand_bind_eq_checkedBy fun hb => ?_
  rw [reg_eq_regAt, reg_eq_regAt]
  exact h ha

/-- Writing a result back and going past three bytes. -/
theorem writeBack_value_advance {ra : Byte} (ha : ra.toNat < 8) (y : Byte) :
    (s.writeBack ⟨ra.toNat, ha⟩ (.value y)).advance cfg 3 =
      checkedBy cfg [.addr (s.pc.toNat + 3)] { s with x := setAt s.x ra y, pc := addrOf cfg (s.pc.toNat + 3) } := by
  rw [State.writeBack, setReg_eq_setAt]
  exact State.advance_eq_checkedBy cfg 3 _

end

/-- ADD under any policies: both registers, the sum, the next address. -/
theorem execUnder_add (cfg : Config) (ra rb : Byte) (s : State) : execUnder cfg (.add ra rb) s =
    outcomeOf cfg 160 [.addr (s.pc.toNat + 1), .reg ra, .addr (s.pc.toNat + 2), .reg rb,
        .value ((regAt s.x ra).toNat + (regAt s.x rb).toNat), .addr (s.pc.toNat + 3)] s
      { s with x := setAt s.x ra (regAt s.x ra + regAt s.x rb), pc := addrOf cfg (s.pc.toNat + 3) } := by
  refine perform_of_checkedBy (aluBody_eq_checkedBy fun ha => value_bind_eq_checkedBy ?_)
  rw [ofInt_add_toNat]
  exact writeBack_value_advance ha _

/-- MUL under any policies: both registers, the product, the next address. -/
theorem execUnder_mul (cfg : Config) (ra rb : Byte) (s : State) : execUnder cfg (.mul ra rb) s =
    outcomeOf cfg 162 [.addr (s.pc.toNat + 1), .reg ra, .addr (s.pc.toNat + 2), .reg rb,
        .value ((regAt s.x ra).toNat * (regAt s.x rb).toNat), .addr (s.pc.toNat + 3)] s
      { s with x := setAt s.x ra (regAt s.x ra * regAt s.x rb), pc := addrOf cfg (s.pc.toNat + 3) } := by
  refine perform_of_checkedBy (aluBody_eq_checkedBy fun ha => value_bind_eq_checkedBy ?_)
  rw [ofInt_mul_toNat]
  exact writeBack_value_advance ha _

/-- CMP under any policies: both registers, the next address; the compare itself raises nothing. -/
theorem execUnder_cmp (cfg : Config) (ra rb : Byte) (s : State) : execUnder cfg (.cmp ra rb) s =
    outcomeOf cfg 167 [.addr (s.pc.toNat + 1), .reg ra, .addr (s.pc.toNat + 2), .reg rb, .addr (s.pc.toNat + 3)] s
      { s with fl := compareFlags (regAt s.x ra) (regAt s.x rb), pc := addrOf cfg (s.pc.toNat + 3) } :=
  perform_of_checkedBy (aluBody_eq_checkedBy fun _ => State.advance_eq_checkedBy cfg 3 (s.setFl _))

/-! ## Two register operands under the decided policies (R202, R210) -/

section
variable {i : Instr} {ra rb : Byte} (hi : regBytes i = [ra, rb]) (ha : ra.toNat < 8)
include hi ha

/-- Past a first operand in 0..7 the second decides. -/
theorem firstBadReg_of_first_lt : firstBadReg (regBytes i) = firstBadReg [rb] :=
  hi ▸ List.find?_cons_of_neg (by simpa using Nat.le_of_lt_succ ha)

/-- An instruction with two register operands, both in 0..7, has its effect. -/
theorem exec_of_two_regs (hb : rb.toNat < 8) (s : State) : exec i s = .next (effect i s) :=
  exec_of_regs ((firstBadReg_of_first_lt hi ha).trans (List.find?_cons_of_neg (by simpa using Nat.le_of_lt_succ hb))) s

/-- An instruction whose second register operand alone is above 7 raises IllegalRegisterIndex of it. -/
theorem exec_of_second_badReg (hb : 7 < rb.toNat) (s : State) :
    exec i s = .next (takeFault (.illegalRegisterIndex rb) (opcodeOf i) s) :=
  exec_of_badReg ((firstBadReg_of_first_lt hi ha).trans (List.find?_cons_of_pos (by simpa using hb))) s

end

end Sys2Proof.Machine
end

section
/-! PROOF. The laws of the ALU (42_alu.md R131 to R134). -/
namespace Sys2Proof.Machine

/-- An outcome whose state keeps FL keeps FL, for a fault changes the status alone (R209). -/
theorem outcomeOf_fl {cfg : Config} {opc : Byte} {checks : List Check} {s t u : State}
    (h : outcomeOf cfg opc checks s t = .next u) (ht : t.fl = s.fl) : u.fl = s.fl := by
  unfold outcomeOf at h
  split at h
  · cases h; rfl
  · cases h; exact ht

/-- Settles O22: the sum and the product go through V, and addition and multiplication commute before it. -/
theorem addAndMulLaws : Obligations.AddAndMulLaws := by
  refine ⟨fun ap a b => ?wrap, fun ap a b => ⟨fun h => ?sum, fun h => ?sumOverflow, fun h => ?product, fun h => ?productOverflow⟩,
    fun cfg a b => ⟨?addComm, ?mulComm⟩, fun cfg ra rb s t => ⟨fun h => ?addFl, fun h => ?mulFl⟩⟩
  case wrap =>
    obtain ⟨y, hy, hsum⟩ := exists_value_of_wrap ap ((a.toNat : Int) + b.toNat)
    obtain ⟨z, hz, hproduct⟩ := exists_value_of_wrap ap ((a.toNat : Int) * b.toNat)
    exact ⟨y, z, hy, mod_cast hsum, hz, mod_cast hproduct⟩
  case sum =>
    obtain ⟨y, hy, hsum⟩ := exists_value_of_fault ap (e := (a.toNat : Int) + b.toNat) (by omega)
    exact ⟨y, hy, mod_cast hsum⟩
  case sumOverflow => exact value_overflow_of_fault ap (by omega)
  case product =>
    obtain ⟨y, hy, hproduct⟩ := exists_value_of_fault ap (e := (a.toNat : Int) * b.toNat) (by norm_cast; omega)
    exact ⟨y, hy, mod_cast hproduct⟩
  case productOverflow => exact value_overflow_of_fault ap (by norm_cast; omega)
  case addComm => rw [alu_add, alu_add, Int.add_comm]
  case mulComm => rw [alu_mul, alu_mul, Int.mul_comm]
  case addFl => exact outcomeOf_fl ((execUnder_add cfg ra rb s).symm.trans h) rfl
  case mulFl => exact outcomeOf_fl ((execUnder_mul cfg ra rb s).symm.trans h) rfl

/-- Settles O23: each flag by its comparison, and two bytes are in one of the three orders. -/
theorem compareSetsExactlyOneFlag : Obligations.CompareSetsExactlyOneFlag := by
  intro cfg a b
  refine ⟨compareFlags a b, rfl, compareFlags_eq_less_iff a b, compareFlags_eq_greater_iff a b, compareFlags_eq_equal_iff a b, ?_⟩
  rw [compareFlags_eq_less_iff, compareFlags_eq_greater_iff, compareFlags_eq_equal_iff]
  bv_omega

/-- The three operations the dispatch block selects (R45, R134). -/
theorem aluOp_eq_some {c : OpClass} {op : AluOp} (h : c.aluOp = some op) : op = .add ∨ op = .mul ∨ op = .cmp := by
  cases c with
  | add => exact .inl (Option.some.inj h).symm
  | mul => exact .inr (.inl (Option.some.inj h).symm)
  | cmp => exact .inr (.inr (Option.some.inj h).symm)
  | _ => cases h

/-- Settles O24: the difference goes through V, DIV looks at its divisor alone, and no class selects another operation. -/
theorem dormantAluOperations : Obligations.DormantAluOperations := by
  refine ⟨fun ap a b => exists_value_of_wrap ap _, fun ap a b h => value_overflow_of_fault ap (by omega), fun ap a b h => ?difference,
    fun cfg a => (alu_div cfg a 0).trans (if_pos rfl), fun cfg a b hb => ⟨_, (alu_div cfg a b).trans (if_neg hb)⟩,
    fun _ _ _ _ => rfl, fun opc e op h => ?dispatch⟩
  case difference =>
    obtain ⟨y, hy, hdiff⟩ := exists_value_of_fault ap (e := (a.toNat : Int) - b.toNat) (by omega)
    exact ⟨y, hy, by omega⟩
  case dispatch =>
    cases hc : classOf opc with
    | none => simp [dispatch_of_unassigned hc] at h
    | some c =>
      rw [dispatch_of_class hc] at h
      exact aluOp_eq_some h

end Sys2Proof.Machine
end

section
/-! PROOF. The instructions of the ALU: ADD, MUL and CMP (42_alu.md R135 to R137). The decided clauses are the instruction's effect and its
register checks in byte order; the last clause is its pseudocode as checks. -/
namespace Sys2Proof.Machine

/-- Settles O28. -/
theorem addAddsIntoTheFirstRegister : Obligations.AddAddsIntoTheFirstRegister := fun ra rb s =>
  ⟨fun ha hb => exec_of_two_regs rfl ha hb s, fun ha => exec_of_first_badReg rfl ha s,
    fun ha hb => exec_of_second_badReg rfl ha hb s, fun cfg => execUnder_add cfg ra rb s⟩

/-- Settles O29. -/
theorem mulMultipliesIntoTheFirstRegister : Obligations.MulMultipliesIntoTheFirstRegister := fun ra rb s =>
  ⟨fun ha hb => exec_of_two_regs rfl ha hb s, fun ha => exec_of_first_badReg rfl ha s,
    fun ha hb => exec_of_second_badReg rfl ha hb s, fun cfg => execUnder_mul cfg ra rb s⟩

/-- Settles O30: the flag word of the statement is the compare written out. -/
theorem cmpReplacesTheFlags : Obligations.CmpReplacesTheFlags := fun ra rb s =>
  ⟨fun ha hb => exec_of_two_regs rfl ha hb s, fun ha => exec_of_first_badReg rfl ha s,
    fun ha hb => exec_of_second_badReg rfl ha hb s, fun cfg => execUnder_cmp cfg ra rb s⟩

end Sys2Proof.Machine
end

section
/-! SUPPORT. Stack and subroutines (43_stack_and_subroutine.md): the registers an operand byte names after a write of one, SP among
them, and the outcome of checks that raise nothing. -/
namespace Sys2Proof.Machine

/-! ## Writes of registers named by operand bytes (R14, R22) -/

/-- The later of two writes of one register stands. -/
theorem setAt_setAt_self (x : Vector Byte 8) (b v w : Byte) : setAt (setAt x b v) b w = setAt x b w := by
  unfold setAt
  split
  · exact Vector.set_set ..
  · rfl

/-- Writes of different registers commute. -/
theorem setAt_comm (x : Vector Byte 8) {a b : Byte} (v w : Byte) (h : a ≠ b) : setAt (setAt x a v) b w = setAt (setAt x b w) a v := by
  have hn : a.toNat ≠ b.toNat := fun e => h (BitVec.eq_of_toNat_eq e)
  unfold setAt
  split
  · split
    · exact Vector.set_comm _ _ hn
    · rfl
  · rfl

/-- Writing what a register holds changes nothing. -/
theorem setAt_regAt_self (x : Vector Byte 8) (b : Byte) : setAt x b (regAt x b) = x := by
  unfold setAt regAt
  split
  · exact Vector.set_getElem_self _
  · rfl

/-- A register operand in 0..6 is not SP's. -/
theorem ne_seven_of_lt {r : Byte} (h : r.toNat < 7) : r ≠ 7 := fun e => absurd h (by simp [e])

/-- A register read after SP was written: the new SP when the operand names it (R14). -/
theorem regAt_setAt_seven (x : Vector Byte 8) (r v : Byte) : regAt (setAt x 7 v) r = if r = 7 then v else regAt x r := by
  split
  · next h => rw [h, regAt_setAt_self x (by decide)]
  · next h => exact regAt_setAt_ne x v h

/-- SP read after a register was written: the value written when the operand names SP (R14). -/
theorem State.sp_setReg_operand (s : State) {r : Byte} (hr : r.toNat < 8) (v : Byte) :
    (s.setReg ⟨r.toNat, hr⟩ v).sp = if r = 7 then v else s.sp := by
  rw [sp_eq_regAt, sp_eq_regAt, setReg_eq_setAt]
  split
  · next h => exact h ▸ regAt_setAt_self s.x hr v
  · next h => exact regAt_setAt_ne s.x v (Ne.symm h)

@[simp] theorem State.pushed_x (s : State) (v : Byte) : (s.pushed v).x = setAt s.x 7 (s.sp - 1) := by
  rw [State.pushed, State.writeByte_x, setSp_eq_setAt]

@[simp] theorem State.sp_pushed (s : State) (v : Byte) : (s.pushed v).sp = s.sp - 1 := by
  rw [State.pushed, State.sp_writeByte, State.sp_setSp]

/-! ## Checks that raise nothing (R12, R204) -/

/-- The policies with ADDR_POLICY = Clamp (R8). -/
def clamping (ov : OverflowPolicy) : Config := { addrPolicy := .clamp, overflowPolicy := ov }

/-- Under Clamp no address raises. -/
@[simp] theorem addr_raises_clamping (ov : OverflowPolicy) (e : Int) : (Check.addr e).raises (clamping ov) = none := rfl

/-- A byte that names a register does not raise. -/
theorem reg_raises_of_lt (cfg : Config) {r : Byte} (h : r.toNat < 8) : (Check.reg r).raises cfg = none := if_neg (by omega)

/-- An instruction none of whose checks raises goes to its state. -/
theorem outcomeOf_of_no_raise {cfg : Config} {checks : List Check} (h : ∀ c ∈ checks, c.raises cfg = none) (opc : Byte) (s t : State) :
    outcomeOf cfg opc checks s t = .next t := by
  rw [outcomeOf, firstRaise, List.findSome?_eq_none_iff.2 h]

end Sys2Proof.Machine
end

section
/-! PROOF. PUSH, POP, CALL and RET (43_stack_and_subroutine.md R150 to R153). The decided clauses are the instruction's effect and its
register check; the last clause is its pseudocode as checks. -/
namespace Sys2Proof.Machine

/-! ## Under any policies -/

/-- PUSH: register, SP, next address; the register is read after the SP write (R14, R150). -/
theorem execUnder_push (cfg : Config) (r : Byte) (s : State) : execUnder cfg (.push r) s =
    outcomeOf cfg 69 [.addr (s.pc.toNat + 1), .reg r, .addr (s.sp.toNat - 1), .addr (s.pc.toNat + 2)] s
      { s with
        x := setAt s.x 7 (addrOf cfg (s.sp.toNat - 1)),
        mem := s.mem.write (addrOf cfg (s.sp.toNat - 1)) (if r = 7 then addrOf cfg (s.sp.toNat - 1) else regAt s.x r),
        pc := addrOf cfg (s.pc.toNat + 2) } := by
  refine perform_of_checkedBy (regOperand_bind_eq_checkedBy fun hr => ?_)
  rw [State.decSp_bind]
  refine normAddr_bind_eq_checkedBy ?_
  rw [State.sp_setSp, State.reg_setSp_eq_regAt, regAt_setAt_seven, setSp_eq_setAt]
  exact State.advance_eq_checkedBy cfg 2 _

/-- The address POP moves SP to, before A: one above SP as the register write left it (R14, R151). -/
theorem sp_after_pop (s : State) {r : Byte} (hr : r.toNat < 8) (v : Byte) :
    ((s.setReg ⟨r.toNat, hr⟩ v).sp.toNat : Int) + 1 = if r = 7 then (v.toNat : Int) + 1 else s.sp.toNat + 1 := by
  rw [State.sp_setReg_operand]
  split <;> rfl

/-- POP: register, SP, next address; SP is read after the register write (R14, R151). -/
theorem execUnder_pop (cfg : Config) (r : Byte) (s : State) : execUnder cfg (.pop r) s =
    let after : Int := if r = 7 then (s.readByte s.sp).toNat + 1 else s.sp.toNat + 1
    outcomeOf cfg 70 [.addr (s.pc.toNat + 1), .reg r, .addr after, .addr (s.pc.toNat + 2)] s
      { s with
        x := setAt (setAt s.x r (s.readByte s.sp)) 7 (addrOf cfg after),
        pc := addrOf cfg (s.pc.toNat + 2) } := by
  refine perform_of_checkedBy (regOperand_bind_eq_checkedBy fun hr => ?_)
  rw [State.incSp_bind, ← sp_after_pop s hr]
  refine normAddr_bind_eq_checkedBy ?_
  rw [setSp_eq_setAt, setReg_eq_setAt]
  exact State.advance_eq_checkedBy cfg 2 _

/-- CALL: register, return address, SP; the register is read after the SP write (R14, R152). -/
theorem execUnder_call (cfg : Config) (r : Byte) (s : State) : execUnder cfg (.call r) s =
    outcomeOf cfg 80 [.addr (s.pc.toNat + 1), .reg r, .addr (s.pc.toNat + 2), .addr (s.sp.toNat - 1)] s
      { s with
        x := setAt s.x 7 (addrOf cfg (s.sp.toNat - 1)),
        mem := s.mem.write (addrOf cfg (s.sp.toNat - 1)) (addrOf cfg (s.pc.toNat + 2)),
        pc := if r = 7 then addrOf cfg (s.sp.toNat - 1) else regAt s.x r } := by
  refine perform_of_checkedBy (regOperand_bind_eq_checkedBy fun hr => normAddr_bind_eq_checkedBy ?_)
  rw [State.decSp_bind]
  refine normAddr_bind_eq_checkedBy ?_
  rw [State.sp_setSp, State.reg_setSp_eq_regAt, regAt_setAt_seven, setSp_eq_setAt]
  rfl

/-- RET: SP alone can raise (R153). -/
theorem execUnder_ret (cfg : Config) (s : State) : execUnder cfg .ret s =
    outcomeOf cfg 17 [.addr (s.sp.toNat + 1)] s
      { s with pc := s.readByte s.sp, x := setAt s.x 7 (addrOf cfg (s.sp.toNat + 1)) } := by
  refine perform_of_checkedBy (normAddr_bind_eq_checkedBy ?_)
  rw [setSp_eq_setAt]
  rfl

/-! ## The obligations -/

/-- Settles O31: the register PUSH stores is read after the SP write. -/
theorem pushStoresBelowTheStackPointer : Obligations.PushStoresBelowTheStackPointer := fun r s =>
  ⟨fun hr => by rw [exec_of_one_reg rfl hr, effect, regAt_setAt_seven],
    fun hr => exec_of_first_badReg rfl hr s, fun cfg => execUnder_push cfg r s⟩

/-- Settles O32: POP's second register write starts from SP as the first left it. -/
theorem popLoadsFromTheStackPointer : Obligations.PopLoadsFromTheStackPointer := fun r s =>
  ⟨fun hr hne => by rw [exec_of_one_reg rfl hr, effect, regAt_setAt_ne s.x _ (Ne.symm hne), sp_eq_regAt],
    fun h7 => by
      subst h7
      rw [exec_of_one_reg rfl (by decide), effect, regAt_setAt_self s.x (by decide), setAt_setAt_self],
    fun hr => exec_of_first_badReg rfl hr s, fun cfg => execUnder_pop cfg r s⟩

/-- Settles O33: the register CALL goes to is read after the SP write. -/
theorem callPushesTheReturnAddress : Obligations.CallPushesTheReturnAddress := fun r s =>
  ⟨fun hr => by rw [exec_of_one_reg rfl hr, effect, regAt_setAt_seven],
    fun hr => exec_of_first_badReg rfl hr s, fun cfg => execUnder_call cfg r s⟩

/-- Settles O34: RET has no register operand, so it has its effect. -/
theorem retPopsThePc : Obligations.RetPopsThePc := fun s => ⟨exec_ret s, fun cfg => execUnder_ret cfg s⟩

end Sys2Proof.Machine
end

section
/-! PROOF. The stack laws (43_stack_and_subroutine.md R154): what POP and RET find where PUSH and CALL left it. -/
namespace Sys2Proof.Machine

/-- Popping one register's own value back, over any SP, and restoring SP restores the registers. -/
theorem setAt_restore (x : Vector Byte 8) {r : Byte} (sp : Byte) (h : r ≠ 7) :
    setAt (setAt (setAt x 7 sp) r (regAt x r)) 7 (regAt x 7) = x :=
  calc setAt (setAt (setAt x 7 sp) r (regAt x r)) 7 (regAt x 7)
    _ = setAt (setAt (setAt x 7 sp) 7 (regAt x 7)) r (regAt x r) := setAt_comm _ _ _ h
    _ = x := by rw [setAt_setAt_self, setAt_regAt_self, setAt_regAt_self]

/-- PUSH then POP of one register other than SP restores every register and leaves the byte below SP. -/
theorem pop_after_push {r : Byte} {s : State} (hr : r.toNat < 7) (hm : s.mem.wf) :
    ∃ t u, exec (.push r) s = .next t ∧ exec (.pop r) t = .next u ∧ u.x = s.x ∧ u.sp = s.sp ∧ u.readByte (s.sp - 1) = regAt s.x r := by
  have hne : r ≠ 7 := ne_seven_of_lt hr
  have hcell : (s.pushed (regAt s.x r)).readByte (s.sp - 1) = regAt s.x r := State.readByte_pushed_self hm _
  have hx : (effect (.pop r) ((s.pushed (regAt s.x r)).setPc (s.pc + 2))).x = s.x := by
    simp only [effect, State.setPc_x, State.sp_setPc, State.readByte_setPc, State.pushed_x, State.sp_pushed, hcell]
    rw [regAt_setAt_ne _ _ (Ne.symm hne), regAt_setAt_self s.x (by decide), sp_eq_regAt, BitVec.sub_add_cancel]
    exact setAt_restore s.x _ hne
  exact ⟨_, _, exec_push_below_sp hr, exec_of_one_reg rfl (by omega) _, hx, by rw [sp_eq_regAt, sp_eq_regAt, hx], hcell⟩

/-- A RET with SP and the return cell as CALL left them goes to the byte after the CALL and restores SP. -/
theorem ret_after_call {r : Byte} {s t u : State} (hr : r.toNat < 8) (hm : s.mem.wf) (h : exec (.call r) s = .next t)
    (hsp : u.sp = t.sp) (hcell : u.readByte t.sp = t.readByte t.sp) :
    ∃ v, exec .ret u = .next v ∧ v.pc = s.pc + 2 ∧ v.sp = s.sp := by
  cases (exec_call hr).symm.trans h
  simp only [State.sp_setPc, State.sp_pushed, State.readByte_setPc, State.readByte_pushed_self hm] at hsp hcell
  refine ⟨_, exec_ret u, ?_, ?_⟩
  · show u.readByte u.sp = s.pc + 2
    rw [hsp, hcell]
  · rw [sp_eq_regAt]
    calc regAt (setAt u.x 7 (u.sp + 1)) 7
      _ = u.sp + 1 := regAt_setAt_self u.x (by decide) _
      _ = s.sp := by rw [hsp, BitVec.sub_add_cancel]

/-- From SP = 0 under Clamp, PUSH leaves SP there: A(-1) is 0 (R12). -/
theorem push_clamping_at_zero (ov : OverflowPolicy) {r : Byte} {s : State} (hr : r.toNat < 8) (hsp : s.sp = 0) :
    ∃ t, execUnder (clamping ov) (.push r) s = .next t ∧ t.sp = 0 := by
  refine ⟨_, (execUnder_push (clamping ov) r s).trans (outcomeOf_of_no_raise ?_ _ _ _), ?_⟩
  · simp [reg_raises_of_lt (clamping ov) hr]
  · rw [sp_eq_regAt, regAt_setAt_self s.x (by decide), hsp]
    rfl

/-- From SP = 0 under Clamp, POP of a register other than SP moves SP to 1. -/
theorem pop_clamping_at_zero (ov : OverflowPolicy) {r : Byte} {s : State} (hr : r.toNat < 7) (hsp : s.sp = 0) :
    ∃ t, execUnder (clamping ov) (.pop r) s = .next t ∧ t.sp = 1 := by
  refine ⟨_, (execUnder_pop (clamping ov) r s).trans (outcomeOf_of_no_raise ?_ _ _ _), ?_⟩
  · simp [reg_raises_of_lt (clamping ov) (Nat.lt_succ_of_lt hr)]
  · rw [sp_eq_regAt, regAt_setAt_self _ (by decide), if_neg (ne_seven_of_lt hr), hsp]
    simp [addrOf, clamping]

/-- Settles O48: each law follows the state the first instruction leaves into the second. -/
theorem stackLaws : Obligations.StackLaws := by
  refine ⟨fun _ _ => pop_after_push, fun _ _ _ _ => ret_after_call, fun r s ov hr hsp => ?clamp⟩
  case clamp =>
    obtain ⟨t, hpush, htsp⟩ := push_clamping_at_zero ov (Nat.lt_succ_of_lt hr) hsp
    obtain ⟨u, hpop, husp⟩ := pop_clamping_at_zero ov hr htsp
    exact ⟨t, u, hpush, htsp, hpop, husp⟩

end Sys2Proof.Machine
end

section
/-! PROOF. JMP, JEQ and JNE (44_branches.md R170 to R172). The decided clauses are the instruction's effect, by FL.E, and its register
check; the last clause is its pseudocode as checks. -/
namespace Sys2Proof.Machine

/-! ## Under any policies -/

/-- A branch that is taken checks its register alone: its target is a byte already, and no address is computed (R170, R204). -/
theorem branchBody_taken (cfg : Config) (r : Byte) (s : State) : branchBody cfg true r s =
    checkedBy cfg [.addr (s.pc.toNat + 1), .reg r] { s with pc := regAt s.x r } := by
  refine regOperand_bind_eq_checkedBy fun hr => ?_
  rw [if_pos rfl, reg_eq_regAt]
  rfl

/-- A branch that is not taken checks its register too, then the next address (R171, R172, R202). -/
theorem branchBody_not_taken (cfg : Config) (r : Byte) (s : State) : branchBody cfg false r s =
    checkedBy cfg [.addr (s.pc.toNat + 1), .reg r, .addr (s.pc.toNat + 2)] { s with pc := addrOf cfg (s.pc.toNat + 2) } := by
  refine regOperand_bind_eq_checkedBy fun hr => ?_
  rw [if_neg Bool.false_ne_true]
  exact State.advance_eq_checkedBy cfg 2 s

/-- JMP is a branch always taken. -/
theorem jmpBody_eq_branchBody (cfg : Config) (r : Byte) (s : State) : jmpBody cfg r s = branchBody cfg true r s := rfl

/-- An instruction whose pseudocode is a branch has the outcome of the checks on the side its condition picks (R13, R210). -/
theorem perform_branchBody (cfg : Config) (opc : Byte) {body : State → Except FaultCause State} {taken : Bool} {r : Byte} {s : State}
    (h : body s = branchBody cfg taken r s) : perform opc body s =
      if taken = true then outcomeOf cfg opc [.addr (s.pc.toNat + 1), .reg r] s { s with pc := regAt s.x r }
      else outcomeOf cfg opc [.addr (s.pc.toNat + 1), .reg r, .addr (s.pc.toNat + 2)] s
        { s with pc := addrOf cfg (s.pc.toNat + 2) } := by
  cases taken with
  | true => exact perform_of_checkedBy (h.trans (branchBody_taken cfg r s))
  | false => exact perform_of_checkedBy (h.trans (branchBody_not_taken cfg r s))

/-! ## The obligations -/

/-- Settles O35: JMP is the branch that is always taken. -/
theorem jmpGoesToTheRegister : Obligations.JmpGoesToTheRegister := fun r s =>
  ⟨fun hr => exec_of_one_reg rfl hr s, fun hr => exec_of_first_badReg rfl hr s,
    fun cfg => perform_of_checkedBy ((jmpBody_eq_branchBody cfg r s).trans (branchBody_taken cfg r s))⟩

/-- Settles O36: the branch on FL.E. -/
theorem jeqJumpsWhenEqual : Obligations.JeqJumpsWhenEqual := fun r s =>
  ⟨fun hr hE => by rw [exec_of_one_reg rfl hr, effect, State.flagE, if_pos hE],
    fun hr hE => by rw [exec_of_one_reg rfl hr, effect, State.flagE, if_neg (ne_true_of_eq_false hE)],
    fun hr => exec_of_first_badReg rfl hr s, fun cfg => perform_branchBody cfg 85 (taken := s.flagE) rfl⟩

/-- Settles O37: the branch on the complement of FL.E. -/
theorem jneJumpsWhenNotEqual : Obligations.JneJumpsWhenNotEqual := fun r s =>
  ⟨fun hr hE => by rw [exec_of_one_reg rfl hr, effect, State.flagE, if_neg (ne_true_of_eq_false hE)],
    fun hr hE => by rw [exec_of_one_reg rfl hr, effect, State.flagE, if_pos hE],
    fun hr => exec_of_first_badReg rfl hr s, fun cfg => by
      simp only [← Bool.not_eq_true']
      exact perform_branchBody cfg 86 (taken := !s.flagE) rfl⟩

end Sys2Proof.Machine
end

section
/-! SUPPORT. What pseudocode can raise (60_exceptions.md R201 to R206): each line raises only what the table allows the instruction, so
the whole of it does. -/
namespace Sys2Proof.Machine

/-- Whatever `x` raises is in `P`. -/
def RaisesOnly {α : Type} (P : FaultCause → Prop) (x : Except FaultCause α) : Prop := ∀ c, x = .error c → P c

namespace RaisesOnly

theorem ok {α : Type} (P : FaultCause → Prop) (a : α) : RaisesOnly P (.ok a) := fun _ h => nomatch h

/-- A sequence raises what its parts raise (R210). -/
theorem bind {α β : Type} {P : FaultCause → Prop} {x : Except FaultCause α} {f : α → Except FaultCause β} (hx : RaisesOnly P x)
    (hf : ∀ a, RaisesOnly P (f a)) : RaisesOnly P (x >>= f) := fun c h =>
  (bind_error h).elim (hx c) fun ⟨a, _, ha⟩ => hf a c ha

theorem map {α β : Type} {P : FaultCause → Prop} {x : Except FaultCause α} (hx : RaisesOnly P x) (f : α → β) :
    RaisesOnly P (x.map f) := by
  intro c h
  cases x with
  | ok a => cases h
  | error d => exact Except.error.inj h ▸ hx d rfl

end RaisesOnly

/-- The table of R201: the faults open to an instruction with opcode byte `opc` and register operand bytes `regs` under `cfg`. -/
def TableCause (cfg : Config) (opc : Byte) (regs : List Byte) : FaultCause → Prop
  | .unsupportedOperation _ => False
  | .illegalRegisterIndex b => 7 < b.toNat ∧ b ∈ regs
  | .arithmeticOverflow e => 255 < e ∧ cfg.overflowPolicy = .fault ∧ (opc = opcode .add ∨ opc = opcode .mul)
  | .divideByZero _ => False
  | .addressOutOfRange e => (e < 0 ∨ 255 < e) ∧ cfg.addrPolicy = .fault ∧ opc ≠ opcode .hlt

/-! ## The operations that compute no address -/

section
variable {cfg : Config} {opc : Byte} {regs : List Byte}

/-- A register check raises of an operand byte of the instruction (R202). -/
theorem regIndex_raises {b : Byte} (hb : b ∈ regs) : RaisesOnly (TableCause cfg opc regs) (regIndex b) := fun _ h => by
  obtain ⟨rfl, hgt⟩ := regIndex_error h
  exact ⟨hgt, hb⟩

/-- A value that is not negative raises above 255 alone (R203). -/
theorem normValue_raises (hopc : opc = opcode .add ∨ opc = opcode .mul) {e : Int} (he : 0 ≤ e) :
    RaisesOnly (TableCause cfg opc regs) (normValue cfg e) := fun _ h => by
  obtain ⟨hp, hr, rfl⟩ := normValue_error h
  exact ⟨by omega, hp, hopc⟩

end

/-! ## The operations of every instruction but HLT, which computes no address (R106, R204) -/

section
variable {cfg : Config} {opc : Byte} {regs : List Byte} (hopc : opc ≠ opcode .hlt)
include hopc

theorem normAddr_raises (e : Int) : RaisesOnly (TableCause cfg opc regs) (normAddr cfg e) := fun _ h => by
  obtain ⟨hp, hr, rfl⟩ := normAddr_error h
  exact ⟨by omega, hp, hopc⟩

theorem State.advance_raises (len : Nat) (s : State) : RaisesOnly (TableCause cfg opc regs) (s.advance cfg len) :=
  .bind (normAddr_raises hopc _) fun _ => .ok _ _

theorem State.decSp_raises (s : State) : RaisesOnly (TableCause cfg opc regs) (s.decSp cfg) :=
  .bind (normAddr_raises hopc _) fun _ => .ok _ _

theorem State.incSp_raises (s : State) : RaisesOnly (TableCause cfg opc regs) (s.incSp cfg) :=
  .bind (normAddr_raises hopc _) fun _ => .ok _ _

theorem regOperand_raises (k : Nat) {b : Byte} (hb : b ∈ regs) (s : State) :
    RaisesOnly (TableCause cfg opc regs) (regOperand cfg k b s) :=
  .bind (normAddr_raises hopc _) fun _ => regIndex_raises hb

theorem immOperand_raises (k : Nat) (b : Byte) (s : State) : RaisesOnly (TableCause cfg opc regs) (immOperand cfg k b s) :=
  .bind (normAddr_raises hopc _) fun _ => .ok _ _

/-- What ADD, MUL and CMP share raises no more than the ALU does for the operation. -/
theorem aluBody_raises {op : AluOp} (hop : ∀ a b, RaisesOnly (TableCause cfg opc regs) (alu cfg op a b)) {ra rb : Byte}
    (ha : ra ∈ regs) (hb : rb ∈ regs) (s : State) : RaisesOnly (TableCause cfg opc regs) (aluBody cfg op ra rb s) :=
  .bind (regOperand_raises hopc 1 ha s) fun _ => .bind (regOperand_raises hopc 2 hb s) fun _ =>
    .bind (hop _ _) fun _ => State.advance_raises hopc 3 _

/-- A branch raises the same faults on both sides (R202). -/
theorem branchBody_raises (taken : Bool) {r : Byte} (hr : r ∈ regs) (s : State) :
    RaisesOnly (TableCause cfg opc regs) (branchBody cfg taken r s) :=
  .bind (regOperand_raises hopc 1 hr s) fun _ => by
    cases taken with
    | true => exact .ok _ _
    | false => exact State.advance_raises hopc 2 s

end

/-! ## The instructions and the skip -/

/-- HLT alone has HLT's opcode. -/
theorem opcodeOf_ne_hlt {i : Instr} (hi : i ≠ .hlt) : opcodeOf i ≠ opcode .hlt := by
  cases i with
  | hlt => exact absurd rfl hi
  | _ => simp [opcodeOf, Instr.opClass, opcode]

/-- An instruction raises only what the table allows its opcode and its register operand bytes (R201). -/
theorem bodyUnder_raises (cfg : Config) (i : Instr) (s : State) :
    RaisesOnly (TableCause cfg (opcodeOf i) (regBytes i)) (bodyUnder cfg i s) := by
  obtain rfl | hi := eq_or_ne i .hlt
  · exact .ok _ _
  have hopc := opcodeOf_ne_hlt hi
  cases i with
  | ldi r imm =>
    exact .bind (regOperand_raises hopc 1 (List.mem_singleton_self r) s) fun _ =>
      .bind (immOperand_raises hopc 2 imm s) fun _ => State.advance_raises hopc 3 _
  | prn r =>
    exact .bind (regOperand_raises hopc 1 (List.mem_singleton_self r) s) fun _ => State.advance_raises hopc 2 _
  | hlt => exact absurd rfl hi
  | add ra rb =>
    refine aluBody_raises hopc (fun a b => ?_) (by simp [regBytes]) (by simp [regBytes]) s
    exact .map (normValue_raises (.inl rfl) (by omega)) _
  | mul ra rb =>
    refine aluBody_raises hopc (fun a b => ?_) (by simp [regBytes]) (by simp [regBytes]) s
    exact .map (normValue_raises (.inr rfl) (by positivity)) _
  | cmp ra rb => exact aluBody_raises hopc (fun _ _ => .ok _ _) (by simp [regBytes]) (by simp [regBytes]) s
  | push r =>
    exact .bind (regOperand_raises hopc 1 (List.mem_singleton_self r) s) fun _ =>
      .bind (State.decSp_raises hopc s) fun _ => State.advance_raises hopc 2 _
  | pop r =>
    exact .bind (regOperand_raises hopc 1 (List.mem_singleton_self r) s) fun _ =>
      .bind (State.incSp_raises hopc _) fun _ => State.advance_raises hopc 2 _
  | call r =>
    exact .bind (regOperand_raises hopc 1 (List.mem_singleton_self r) s) fun _ =>
      .bind (normAddr_raises hopc _) fun _ => .bind (State.decSp_raises hopc s) fun _ => .ok _ _
  | ret => exact State.incSp_raises hopc _
  | jmp r => exact branchBody_raises hopc true (List.mem_singleton_self r) s
  | jeq r => exact branchBody_raises hopc _ (List.mem_singleton_self r) s
  | jne r => exact branchBody_raises hopc _ (List.mem_singleton_self r) s

/-- The skip of an unassigned opcode raises only what the table allows: an address (R105, R204). -/
theorem unassignedBody_raises {cfg : Config} {s : State} (hi : s.fetch cfg = none) (regs : List Byte) :
    RaisesOnly (TableCause cfg (s.readByte s.pc) regs) (unassignedBody cfg s) := by
  have hopc : s.readByte s.pc ≠ opcode .hlt := fun h => by simpa [h] using decodeWindow_none.1 hi
  exact State.advance_raises hopc 1 s

end Sys2Proof.Machine
end

section
/-! PROOF. The faults of the machine (60_exceptions.md R201 to R206, R210): which of them a step can raise, and the register check. -/
namespace Sys2Proof.Machine

/-- The register operand bytes of the instruction at pc; an unassigned opcode has none. -/
def State.regBytesAtPc (cfg : Config) (s : State) : List Byte := (s.fetch cfg).elim [] regBytes

theorem State.mem_regBytesAtPc {cfg : Config} {s : State} {b : Byte} (hb : b ∈ s.regBytesAtPc cfg) :
    ∃ i, s.fetch cfg = some i ∧ b ∈ regBytes i := by
  unfold State.regBytesAtPc at hb
  cases hi : s.fetch cfg with
  | none => simp [hi] at hb
  | some i => exact ⟨i, rfl, by simpa [hi] using hb⟩

/-- A step that faults was at an instruction, or at a skip, whose pseudocode raised the cause on record (R13, R201). -/
theorem raised_of_stepUnder_faulted {cfg : Config} {s t : State} {info : FaultInfo} (hs : s.status = .running)
    (h : stepUnder cfg s = .next t) (ht : t.status = .faulted info) :
    (∃ i, s.fetch cfg = some i ∧ bodyUnder cfg i s = .error info.cause) ∨
    (s.fetch cfg = none ∧ unassignedBody cfg s = .error info.cause) := by
  rcases stepUnder_cases h with ⟨hn, -⟩ | ⟨-, i, hi, hb | ⟨c, hb, rfl⟩⟩ | ⟨-, hi, hb | ⟨c, hb, rfl⟩⟩
  · exact absurd hs hn
  · rcases bodyUnder_status hb with hk | hk
    · simp [hs, ht] at hk
    · simp [ht] at hk
  · obtain rfl := Status.faulted.inj ht
    exact .inl ⟨i, hi, hb⟩
  · simp [State.advance_status hb, hs] at ht
  · obtain rfl := Status.faulted.inj ht
    exact .inr ⟨hi, hb⟩

/-- The cause a step records is one the table allows the bytes at pc. -/
theorem tableCause_of_stepUnder_faulted {cfg : Config} {s t : State} {info : FaultInfo} (hs : s.status = .running)
    (h : stepUnder cfg s = .next t) (ht : t.status = .faulted info) :
    TableCause cfg (s.readByte s.pc) (s.regBytesAtPc cfg) info.cause := by
  rcases raised_of_stepUnder_faulted hs h ht with ⟨i, hi, hb⟩ | ⟨hi, hb⟩
  · rw [State.opcode_of_fetch hi, State.regBytesAtPc, hi]
    exact bodyUnder_raises cfg i s _ hb
  · exact unassignedBody_raises hi _ _ hb

/-- Settles O19: the recorded cause is in the table, row by row. -/
theorem faultsAreThoseOfTheTable : Obligations.FaultsAreThoseOfTheTable := by
  intro cfg s t info hs h ht
  have hc := tableCause_of_stepUnder_faulted hs h ht
  obtain ⟨c, rfl, -⟩ := stepUnder_faulted hs h ht
  cases c with
  | unsupportedOperation op => exact hc
  | illegalRegisterIndex b => exact ⟨rfl, rfl, hc.1, State.mem_regBytesAtPc hc.2⟩
  | arithmeticOverflow e => exact ⟨rfl, rfl, hc⟩
  | divideByZero a => exact hc
  | addressOutOfRange e => exact ⟨rfl, rfl, hc⟩

/-- Settles O20: under the decided policies an instruction's register operands are all that it checks, and the first above 7 is named. -/
theorem registerByteAboveSevenRaises : Obligations.RegisterByteAboveSevenRaises := fun _ s _ h => ⟨exec_of_badReg h s, rfl⟩

end Sys2Proof.Machine
end
